-- ==== Sys2Proof/Word.lean ====
section
/-! DEFINITION. The word types of the GC24: a register, the program counter and an address are 24 bits wide, a memory
byte 8 bits (rules R7, R20, R26, R50). -/

namespace Sys2Proof

/-- A register, address or program counter value (R20, R26): arithmetic wraps modulo 2^24. -/
abbrev Word := BitVec 24

/-- One byte of memory or of the instruction stream (R50, R80). -/
abbrev Byte := BitVec 8

end Sys2Proof
end

