-- ==== Sys2Proof/Machine/Bytes.lean ====
section
/-! DEFINITION. Bytes of a word and the little-endian order of the accessors, the instruction stream and the vector
table (R53, R54, R56, R85). -/

namespace Sys2Proof

/-- Byte `k` of a word: its bits 8k+7:8k (R54). -/
def byteOf (v : Word) (k : Nat) : Byte := v.extractLsb' (8 * k) 8

/-- Three bytes put together little-endian, `b0` the least significant (R53, R85). -/
def joinBytes (b0 b1 b2 : Byte) : Word := (b2 ++ b1 ++ b0 : BitVec (8 + 8 + 8))

end Sys2Proof
end

