-- ==== Sys2Proof/Config.lean ====
section
/-! DEFINITION. What the spec leaves to configuration: the types of its named parameters (R8), and the free values
that no body fixes. The parameters' default VALUES stand in Machine/Params.lean, and the configuration that the model
takes as an argument in Machine/Configuration.lean. -/

namespace Sys2Proof

/-- The eight general registers by name, in the order of their default indices (R20, R21). -/
inductive Reg where
  | ax | bx | cx | dx | si | gi | sp | bp
  deriving DecidableEq, Repr

/-- The four live flags (R31). -/
inductive Flag where
  | c | n | z | i
  deriving DecidableEq, Repr

/-- The eight host services of the interrupt bank (R222). -/
inductive HostService where
  | exit | consoleRead | consoleWrite | reset | videoFlush | random | clock | delay
  deriving DecidableEq, Repr

/-- Parameter `CLUSTER_DEST` (R8, D6): which cluster field `add` and `mov` write. -/
inductive ClusterField where
  | x | y
  deriving DecidableEq, Repr

/-- Parameter `STACK_SLOT_LAYOUT` (R8, R57, D19): the order of a stack slot's three bytes. -/
inductive StackSlotLayout where
  /-- Least significant byte at the slot's highest address. -/
  | descending
  /-- Least significant byte at the slot's lowest address. -/
  | littleEndianLow
  deriving DecidableEq, Repr

/-- Parameter `CMP_SIGN_READING` (R8, R155, D21): how `cmp` reads the sign of the difference. -/
inductive CmpSignReading where
  /-- N is bit 23 of the 24-bit difference. -/
  | wrap24
  /-- N says that the register is below the immediate as unsigned numbers. -/
  | exact
  deriving DecidableEq, Repr

namespace Config

/-- FREE VALUE (R225, U11): what the host answers to the draw numbered `n` when it is a console-read; `none` means that
the host never answers. Log entries 9 and 10. -/
opaque consoleIn : Nat → Option Byte

/-- FREE VALUE (R229, U10): what the host's pseudo-random source gives at the draw numbered `n`. Log entry 9. -/
opaque random : Nat → BitVec 16

/-- FREE VALUE (R230, U9): the packed date/time value the host gives at the draw numbered `n`. Log entry 9. -/
opaque clock : Nat → Word

/-- The value of parameter `DELAY_CAP_MS` in the default configuration (R8, R231, U12), OPEN in the spec: the host timer's
range in milliseconds. Only the sleep request depends on it, no state does. Log entry 12. -/
opaque delayCapMs : Nat

end Config

end Sys2Proof
end

