-- ==== Sys2Proof/Syntax.lean ====
section
/-! DEFINITION. The syntax of the GC24 (30_encoding.md): the handlers an opcode byte selects, the instruction formats,
the rows of an opcode map, and `Instr`, one constructor per row of spec/opcode_table.json with its operands. -/

namespace Sys2Proof

/-- The handlers of the primary page (R15 "Handler", R90, R96): what an opcode byte selects before operands are read. -/
inductive Opcode where
  | hlt | trap
  | incR | decR | incByteA | decByteA | incWordA | decWordA
  | intCode
  | addRxRy | movRxRy | lodbRxRy | lodwRxRy | lodhRxRy
  | escapeE
  | jmpT | jeT | jneT | jcT | jncT | jsT | jnT | jiT | jniT
  | pushImm | pushR
  | movRImm | movRByteA | movRWordA | movByteAR | movWordAR
  | addRImm | addRByteA | addRWordA | cmpRImm
  deriving DecidableEq, Repr

/-- The instruction formats of R89. -/
inductive Format where
  /-- The opcode alone. -/
  | n
  /-- The opcode and a register byte. -/
  | r
  /-- The opcode and a register-cluster byte. -/
  | c
  /-- The opcode and an interrupt code. -/
  | i8
  /-- The opcode and a 24-bit field. -/
  | a
  /-- A register in the opcode's low bits, and a 24-bit field. -/
  | oa
  /-- The page escape and an extension opcode. -/
  | e
  deriving DecidableEq, Repr

/-- One row of `OPCODE_MAP` (R90): the lowest opcode byte that selects the handler, and the handler. -/
structure OpcodeRow where
  base : Byte
  opcode : Opcode
  deriving DecidableEq, Repr

/-- The instructions, one constructor per row of spec/opcode_table.json. `a` is a memory address, `t` a jump target,
`imm` an immediate, `code` an interrupt code, `e` an extension opcode, `x` and `y` the cluster's registers. -/
inductive Instr where
  | hlt
  | trap
  | incR (r : Reg)
  | decR (r : Reg)
  | incByteA (a : Word)
  | decByteA (a : Word)
  | incWordA (a : Word)
  | decWordA (a : Word)
  | intCode (code : Byte)
  | addRxRy (x y : Reg)
  | movRxRy (x y : Reg)
  | lodbRxRy (x y : Reg)
  | lodwRxRy (x y : Reg)
  | lodhRxRy (x y : Reg)
  | escapeE (e : Byte)
  | jmpT (t : Word)
  | jeT (t : Word)
  | jneT (t : Word)
  | jcT (t : Word)
  | jncT (t : Word)
  | jsT (t : Word)
  | jnT (t : Word)
  | jiT (t : Word)
  | jniT (t : Word)
  | pushImm (imm : Word)
  | pushR (r : Reg)
  | movRImm (r : Reg) (imm : Word)
  | movRByteA (r : Reg) (a : Word)
  | movRWordA (r : Reg) (a : Word)
  | movByteAR (a : Word) (r : Reg)
  | movWordAR (a : Word) (r : Reg)
  | addRImm (r : Reg) (imm : Word)
  | addRByteA (r : Reg) (a : Word)
  | addRWordA (r : Reg) (a : Word)
  | cmpRImm (r : Reg) (imm : Word)
  deriving DecidableEq, Repr

/-- The handler of an instruction. -/
def Instr.opcode : Instr → Opcode
  | .hlt => .hlt
  | .trap => .trap
  | .incR _ => .incR
  | .decR _ => .decR
  | .incByteA _ => .incByteA
  | .decByteA _ => .decByteA
  | .incWordA _ => .incWordA
  | .decWordA _ => .decWordA
  | .intCode _ => .intCode
  | .addRxRy _ _ => .addRxRy
  | .movRxRy _ _ => .movRxRy
  | .lodbRxRy _ _ => .lodbRxRy
  | .lodwRxRy _ _ => .lodwRxRy
  | .lodhRxRy _ _ => .lodhRxRy
  | .escapeE _ => .escapeE
  | .jmpT _ => .jmpT
  | .jeT _ => .jeT
  | .jneT _ => .jneT
  | .jcT _ => .jcT
  | .jncT _ => .jncT
  | .jsT _ => .jsT
  | .jnT _ => .jnT
  | .jiT _ => .jiT
  | .jniT _ => .jniT
  | .pushImm _ => .pushImm
  | .pushR _ => .pushR
  | .movRImm _ _ => .movRImm
  | .movRByteA _ _ => .movRByteA
  | .movRWordA _ _ => .movRWordA
  | .movByteAR _ _ => .movByteAR
  | .movWordAR _ _ => .movWordAR
  | .addRImm _ _ => .addRImm
  | .addRByteA _ _ => .addRByteA
  | .addRWordA _ _ => .addRWordA
  | .cmpRImm _ _ => .cmpRImm

end Sys2Proof
end

