-- ==== Sys2Proof/Machine/Params.lean ====
section
/-! DEFINITION. The VALUES of the spec's parameters: the ones the source fixes (R7) and the defaults of the named
configuration parameters (R8), which Machine/Configuration.lean gathers into the default configuration. The free values
stand in Config.lean. -/

namespace Sys2Proof

namespace Config

/-- `MEM_SIZE` (R7, R51): 2^24 bytes, and no other value. -/
def memSize : Nat := 0x1000000

/-- The initial pc, 0x030000 (R7, R262). -/
def resetVector : Word := 0x030000

/-- The initial SP and BP, 0xFEFFFF (R7, R45). -/
def initialStack : Word := 0xFEFFFF

/-- The vector table's base, 0xFF0000 (R7, R218). -/
def vectorBase : Word := 0xFF0000

/-- The first vectored interrupt code, 0x80 (R7, R217). -/
def firstVectoredCode : Byte := 0x80

/-- The page-escape opcode (R7, R91). -/
def pageEscape : Byte := 0x0F

/-- The status code of an illegal-instruction or illegal-hardware-interrupt halt (R7, R210). -/
def illegalStatus : Word := 1

/-- Parameter `FLAG_BITS` (R8, R32, D3): each live flag's bit position in the flags byte. -/
def flagBit : Flag → Nat
  | .c => 0
  | .n => 1
  | .z => 2
  | .i => 3

/-- Parameter `REG_INDEX` (R8, R21, D2): the register a 3-bit index names. -/
def regOfIndex (k : BitVec 3) : Reg :=
  match k.toNat with
  | 0 => .ax
  | 1 => .bx
  | 2 => .cx
  | 3 => .dx
  | 4 => .si
  | 5 => .gi
  | 6 => .sp
  | _ => .bp

/-- Parameter `CLUSTER_DEST` (R8, R151, R163, D6). -/
def clusterDest : ClusterField := .x

/-- Parameter `STACK_SLOT_LAYOUT` (R8, R57, D19). -/
def stackSlotLayout : StackSlotLayout := .descending

/-- Parameter `CMP_SIGN_READING` (R8, R155, D21). -/
def cmpSignReading : CmpSignReading := .wrap24

/-- Parameter `SERVICE_REG` (R8, R229 to R231, D11): the register of random, clock and delay. -/
def serviceReg : Reg := .ax

/-- Parameter `HOST_SERVICE_MAP` (R8, R223, D10): the service an interrupt code below 0x80 names. -/
def hostServiceMap (code : Byte) : Option HostService :=
  match code.toNat with
  | 0x00 => some .exit
  | 0x01 => some .consoleRead
  | 0x02 => some .consoleWrite
  | 0x03 => some .reset
  | 0x04 => some .videoFlush
  | 0x05 => some .random
  | 0x06 => some .clock
  | 0x07 => some .delay
  | _ => none

/-- Parameter `OPCODE_MAP` (R8, R90, D1), the fixed-opcode rows, in R90's order. -/
def fixedRows : List OpcodeRow :=
  [⟨0x01, .hlt⟩, ⟨0x02, .trap⟩, ⟨0x03, .incR⟩, ⟨0x04, .decR⟩, ⟨0x05, .incByteA⟩, ⟨0x06, .decByteA⟩,
   ⟨0x07, .incWordA⟩, ⟨0x08, .decWordA⟩, ⟨0x09, .intCode⟩, ⟨0x0A, .addRxRy⟩, ⟨0x0B, .movRxRy⟩,
   ⟨0x0C, .lodbRxRy⟩, ⟨0x0D, .lodwRxRy⟩, ⟨0x0E, .lodhRxRy⟩, ⟨0x0F, .escapeE⟩, ⟨0x10, .jmpT⟩,
   ⟨0x11, .jeT⟩, ⟨0x12, .jneT⟩, ⟨0x13, .jcT⟩, ⟨0x14, .jncT⟩, ⟨0x15, .jsT⟩, ⟨0x16, .jnT⟩,
   ⟨0x17, .jiT⟩, ⟨0x18, .jniT⟩, ⟨0x19, .pushImm⟩, ⟨0x1A, .pushR⟩]

/-- Parameter `OPCODE_MAP` (R8, R90, D1), the register-in-opcode rows: each takes eight opcodes from its base. -/
def registerRows : List OpcodeRow :=
  [⟨0x20, .movRImm⟩, ⟨0x28, .movRByteA⟩, ⟨0x30, .movRWordA⟩, ⟨0x38, .movByteAR⟩, ⟨0x40, .movWordAR⟩,
   ⟨0x48, .addRImm⟩, ⟨0x50, .addRByteA⟩, ⟨0x58, .addRWordA⟩, ⟨0x60, .cmpRImm⟩]

/-- Parameter `OPCODE_MAP` as one table (R90). -/
def opcodeRows : List OpcodeRow := fixedRows ++ registerRows

end Config

/-- The width in bytes of a format, opcode included (R89). -/
def Format.width : Format → Nat
  | .n => 1
  | .r => 2
  | .c => 2
  | .i8 => 2
  | .a => 4
  | .oa => 4
  | .e => 2

/-- The format of each handler (R89 "used by", R90). -/
def Opcode.format : Opcode → Format
  | .hlt | .trap => .n
  | .incR | .decR | .pushR => .r
  | .addRxRy | .movRxRy | .lodbRxRy | .lodwRxRy | .lodhRxRy => .c
  | .intCode => .i8
  | .incByteA | .decByteA | .incWordA | .decWordA => .a
  | .jmpT | .jeT | .jneT | .jcT | .jncT | .jsT | .jnT | .jiT | .jniT | .pushImm => .a
  | .movRImm | .movRByteA | .movRWordA | .movByteAR | .movWordAR => .oa
  | .addRImm | .addRByteA | .addRWordA | .cmpRImm => .oa
  | .escapeE => .e

/-- How many opcode bytes a row takes from its base: a contiguous 8-wide range where the register stands in the opcode,
else the base alone (R84, R90). -/
def Format.opcodeCount : Format → Nat
  | .oa => 8
  | .n | .r | .c | .i8 | .a | .e => 1

/-- The width in bytes of an instruction (R15 "Width", R89). -/
def Instr.width (i : Instr) : Nat := i.opcode.format.width

end Sys2Proof
end

