-- ==== Sys2Proof/Machine/Memory.lean ====
section
/-! DEFINITION. The one flat memory (R50, R51) as plain data: a list of (address, byte) pairs in one canonical form, with
the read and the write of one byte. Memory is zero at creation (R44, R51), so an unlisted address reads as zero. -/

namespace Sys2Proof.Machine

/-- Memory contents by address, only the bytes that differ from `unlistedByte` (log entry 13). -/
abbrev Memory := List Host.Cell

/-- What an address that is not listed reads as: memory is "zero-initialized at creation" (R51). -/
def unlistedByte : Byte := 0

/-- The byte at an address (R52). -/
def Memory.read : Memory → Nat → Byte
  | [], _ => unlistedByte
  | (k, v) :: m, a => if k = a then v else Memory.read m a

/-- Memory without an entry for an address. -/
def Memory.erase (m : Memory) (a : Nat) : Memory := m.filter fun cell => decide (cell.1 ≠ a)

/-- Memory with an entry put in before the first higher address. -/
def Memory.insert : Memory → Nat → Byte → Memory
  | [], a, b => [(a, b)]
  | (k, v) :: m, a, b => if a < k then (a, b) :: (k, v) :: m else (k, v) :: Memory.insert m a b

/-- Write one byte (R52), keeping the canonical form: a byte equal to what an unlisted address reads as is not listed. -/
def Memory.write (m : Memory) (a : Nat) (b : Byte) : Memory :=
  if b = unlistedByte then m.erase a else (m.erase a).insert a b

/-- Every entry from address `lo` on: addresses strictly rising and inside the memory, no byte equal to
`unlistedByte`. -/
def Memory.wfFrom : Nat → Memory → Bool
  | _, [] => true
  | lo, (k, v) :: m => decide (lo ≤ k) && decide (k < Config.memSize) && v != unlistedByte && Memory.wfFrom (k + 1) m

/-- The canonical form, so that equal memories are equal data (log entry 13). -/
def Memory.wf (m : Memory) : Bool := Memory.wfFrom 0 m

end Sys2Proof.Machine
end

