-- ==== Sys2Proof/Machine/State.lean ====
section
/-! DEFINITION. The machine's state as plain data (10_state.md), the reasons a step can stop, the state after `create`
(R44) and the state after reset (R45, R267). -/

namespace Sys2Proof.Machine

/-- The eight 24-bit general registers (R20, R21). -/
structure Regs where
  ax : Word
  bx : Word
  cx : Word
  dx : Word
  si : Word
  gi : Word
  sp : Word
  bp : Word
  deriving DecidableEq, Repr

/-- Why the core halted (R41). -/
inductive HaltReason where
  /-- `hlt` (R112). -/
  | hlt
  /-- The exit service, with the popped value (R224). -/
  | exit (v : Word)
  /-- An opcode with no handler, on either page: the opcode bytes and the pc of the first (R211). -/
  | illegalInstruction (opcodes : List Byte) (pc : Word)
  /-- An interrupt code below 0x80 that names no service: the code and the pc of the `int` (R212). -/
  | illegalHwInterrupt (code : Byte) (pc : Word)
  deriving DecidableEq, Repr

/-- The run state (R41): running, or halted with a 24-bit status code and a reason. -/
inductive RunState where
  | running
  | halted (status : Word) (reason : HaltReason)
  deriving DecidableEq, Repr

/-- One host-service transaction of the trace (R43, R240). -/
inductive HostEvent where
  /-- The byte the host supplied (R225). -/
  | consoleIn (b : Byte)
  /-- The byte the core emitted (R226). -/
  | consoleOut (b : Byte)
  /-- A display-flush request (R228). -/
  | displayFlush
  /-- The pseudo-random value the host supplied (R229, R43; log entry 11). -/
  | random (v : BitVec 16)
  /-- The packed date/time value the host supplied (R230, R43; log entry 11). -/
  | clock (v : Word)
  /-- A sleep request with the millisecond count of the service register (R231). -/
  | delay (ms : Word)
  deriving DecidableEq, Repr

/-- The state of the GC24 core (R20 to R43), and `draws`, the model's own count of the values the host has supplied
(log entry 9). -/
structure State where
  /-- The general registers (R20). -/
  regs : Regs
  /-- The program counter: the address of the next opcode byte (R26). -/
  pc : Word
  /-- The flags byte: C, N, Z, I and the reserved bits 7:4 (R31, R39). -/
  flags : BitVec 8
  /-- The memory (R40, R50). -/
  mem : Memory
  /-- Running or halted (R41). -/
  run : RunState
  /-- The host-service transactions so far, oldest first (R43). -/
  trace : List HostEvent
  /-- How many values the host has supplied so far: it selects the next free value (log entry 9). -/
  draws : Nat
  deriving DecidableEq, Repr

/-- The model faults (R214): states the source calls undefined or gives no meaning. A faulted state is never final and
refutes every claim (R12), so each is SAFE: the machine stops where an implementation might go on. -/
inductive Fault where
  /-- Raised by a memory access or an instruction fetch of `n` bytes at `a` that runs past the top of memory (R29, R55).
  Safe. -/
  | addrWrap (a : Word) (n : Nat)
  /-- Raised by a sequential advance past 0xFFFFFF (R30). Safe. -/
  | pcWrap (pc : Word)
  /-- Raised by a push with SP below 3 or a pop with SP above 0xFFFFFC (R60). Safe. -/
  | stackWrap (sp : Word)
  /-- Raised by the software trap instruction, `Unmodelled(trap, pc)` (R113). Safe. -/
  | unmodelledTrap (pc : Word)
  deriving DecidableEq, Repr

/-- Why an instruction has no meaning in the model. -/
inductive Refusal where
  /-- Raised by an arm of `exec` that has no meaning yet. Safe: the machine stops. -/
  | notModelled (mnemonic : String)
  deriving DecidableEq, Repr

/-- The state after `create` (R44): every field zero, running, the trace empty. -/
def State.create : State where
  regs := { ax := 0, bx := 0, cx := 0, dx := 0, si := 0, gi := 0, sp := 0, bp := 0 }
  pc := 0
  flags := 0
  mem := []
  run := .running
  trace := []
  draws := 0

/-- The machine right after reset, with no program loaded (R45, R261, R267; log entry 15). The flags byte has I set and
every other bit clear (0x08 under the default FLAG_BITS). -/
def State.reset : State where
  regs := { ax := 0, bx := 0, cx := 0, dx := 0, si := 0, gi := 0, sp := Config.initialStack, bp := Config.initialStack }
  pc := Config.resetVector
  flags := 1#8 <<< Config.flagBit .i
  mem := []
  run := .running
  trace := []
  draws := 0

end Sys2Proof.Machine
end

