-- ==== Sys2Proof/Machine/Configuration.lean ====
section
/-! DEFINITION. The configuration that the model takes as an argument (R8): one field for each parameter that the source
does not fix. Every operation that depends on a parameter has the configuration as its last argument, and where it is not
given, it is the spec's default. The one parameter without a field is MEM_SIZE, which is the argument of `hostCreate`: it
admits no value but 2^24 (R51). -/

namespace Sys2Proof.Machine

/-- What a slot of the extension page holds (R91, R114). -/
inductive ExtEntry where
  /-- The slot is unassigned: an illegal instruction (R116). -/
  | illegal
  /-- An extension instruction of the two bytes of the escape, with "a rule of its own" (R114): the outcome from the state
  in which its opcode stands at pc. -/
  | instruction (rule : State → Host.Outcome State Fault Refusal)

/-- The configuration parameters by name (R8). -/
structure Configuration where
  /-- `OPCODE_MAP`, as rows like R90's: a byte that no row takes is Illegal. -/
  opcodeRows : List OpcodeRow
  /-- `EXT_OPCODE_MAP` (R91). -/
  extOpcodeMap : Byte → ExtEntry
  /-- `REG_INDEX`: the register a 3-bit index names (R21). -/
  regOfIndex : BitVec 3 → Reg
  /-- `FLAG_BITS`: each live flag's bit position in the flags byte (R32). -/
  flagBit : Flag → Nat
  /-- `HOST_SERVICE_MAP`: the service an interrupt code below 0x80 names (R223). -/
  hostServiceMap : Byte → Option HostService
  /-- `SERVICE_REG`: the register of random, clock and delay (R229 to R231). -/
  serviceReg : Reg
  /-- `CLUSTER_DEST`: the cluster field that `add` and `mov` write (R151, R163). -/
  clusterDest : ClusterField
  /-- `STACK_SLOT_LAYOUT` (R57). -/
  stackSlotLayout : StackSlotLayout
  /-- `CMP_SIGN_READING` (R155). -/
  cmpSignReading : CmpSignReading
  /-- `DELAY_CAP_MS` (R231). -/
  delayCapMs : Nat

end Sys2Proof.Machine

namespace Sys2Proof.Config

/-- Parameter `EXT_OPCODE_MAP` (R8, R91, D16): every slot of the extension page is illegal. -/
def extOpcodeMap (_e : Byte) : Machine.ExtEntry := .illegal

/-- The default configuration: every parameter at the default of R8. -/
def defaults : Machine.Configuration where
  opcodeRows := opcodeRows
  extOpcodeMap := extOpcodeMap
  regOfIndex := regOfIndex
  flagBit := flagBit
  hostServiceMap := hostServiceMap
  serviceReg := serviceReg
  clusterDest := clusterDest
  stackSlotLayout := stackSlotLayout
  cmpSignReading := cmpSignReading
  delayCapMs := delayCapMs

end Sys2Proof.Config
end

