-- ==== Sys2Proof/Machine/Flags.lean ====
section
/-! DEFINITION. The flags byte (R31 to R39): reading and writing one flag, and the flag computations of `cmp` (R155). -/

namespace Sys2Proof.Machine

/-- The mask of one flag's bit in the flags byte (R32). -/
def flagMask (f : Flag) (cfg : Configuration := Config.defaults) : BitVec 8 := 1#8 <<< cfg.flagBit f

/-- Read one flag of a flags byte (R10). -/
def flagGet (flags : BitVec 8) (f : Flag) (cfg : Configuration := Config.defaults) : Bool :=
  flags.getLsbD (cfg.flagBit f)

/-- Write one flag of a flags byte, leaving its other bits as they were (R10, R31). -/
def flagPut (flags : BitVec 8) (f : Flag) (b : Bool) (cfg : Configuration := Config.defaults) : BitVec 8 :=
  if b then flags ||| flagMask f cfg else flags &&& ~~~ flagMask f cfg

/-- `F.f` (R10). -/
def State.flag (s : State) (f : Flag) (cfg : Configuration := Config.defaults) : Bool := flagGet s.flags f cfg

/-- `F.f <- b` (R10). -/
def State.setFlag (s : State) (f : Flag) (b : Bool) (cfg : Configuration := Config.defaults) : State :=
  { s with flags := flagPut s.flags f b cfg }

/-- Z after `cmp` of `v` with `imm`: the 24-bit difference is zero (R155). -/
def cmpZero (v imm : Word) : Bool := v - imm == 0

/-- N after `cmp` of `v` with `imm`, under each reading of the sign (R155, D21). -/
def cmpNegative (reading : CmpSignReading) (v imm : Word) : Bool :=
  match reading with
  | .wrap24 => (v - imm).getLsbD 23
  | .exact => decide (v.toNat < imm.toNat)

/-- The flag writes of `cmp`: Z and N, to 1 or 0 (R155). -/
def State.setCompareFlags (s : State) (v imm : Word) (cfg : Configuration := Config.defaults) : State :=
  (s.setFlag .z (cmpZero v imm) cfg).setFlag .n (cmpNegative cfg.cmpSignReading v imm) cfg

end Sys2Proof.Machine
end

