-- ==== Sys2Proof/Machine/Ops.lean ====
section
/-! DEFINITION. The named operations the instructions share: registers and pc (R10), memory (R11, R53 to R55), the stack
(R57 to R60), the sequential advance (R27, R30), halting (R12, R110), the vectored interrupt entry (R217, R218), the
reset action (R261) and the host-service record (R43). -/

namespace Sys2Proof.Machine

/-- What a meaning or a step answers (R12): `next` for continue and halt, `fault` for a raised model fault. -/
abbrev Result := Host.Outcome State Fault Refusal

/-! Registers and pc. -/

/-- Read a register of the file (R10). -/
def Regs.get (g : Regs) : Reg → Word
  | .ax => g.ax
  | .bx => g.bx
  | .cx => g.cx
  | .dx => g.dx
  | .si => g.si
  | .gi => g.gi
  | .sp => g.sp
  | .bp => g.bp

/-- Write a register of the file: the whole 24-bit value, no register hard-wired (R10, R22, R23). -/
def Regs.set (g : Regs) (r : Reg) (v : Word) : Regs :=
  match r with
  | .ax => { g with ax := v }
  | .bx => { g with bx := v }
  | .cx => { g with cx := v }
  | .dx => { g with dx := v }
  | .si => { g with si := v }
  | .gi => { g with gi := v }
  | .sp => { g with sp := v }
  | .bp => { g with bp := v }

/-- `x[r]` (R10). -/
def State.reg (s : State) (r : Reg) : Word := s.regs.get r

/-- `x[r] <- v` (R10, R23). -/
def State.setReg (s : State) (r : Reg) (v : Word) : State := { s with regs := s.regs.set r v }

/-- `pc <- target` (R10). -/
def State.setPc (s : State) (target : Word) : State := { s with pc := target }

/-! Memory. -/

/-- The widths of a data access: 8, 16 and 24 bits (R7, R11). -/
inductive Width where
  | byte | word | triple
  deriving DecidableEq, Repr

/-- The number of bytes of an access width. -/
def Width.bytes : Width → Nat
  | .byte => 1
  | .word => 2
  | .triple => 3

/-- An `n`-byte access at `a` stays inside the memory (R55). -/
def inMemory (a : Word) (n : Nat) : Bool := decide (a.toNat + n ≤ Config.memSize)

/-- `MemRead(a, n)` (R11, R53): little-endian and zero-extended to 24 bits, or `AddrWrap(a, n)` (R55). -/
def memRead (m : Memory) (a : Word) (n : Width) : Except Fault Word :=
  if inMemory a n.bytes then
    .ok (match n with
      | .byte => joinBytes (m.read a.toNat) 0 0
      | .word => joinBytes (m.read a.toNat) (m.read (a.toNat + 1)) 0
      | .triple => joinBytes (m.read a.toNat) (m.read (a.toNat + 1)) (m.read (a.toNat + 2)))
  else .error (.addrWrap a n.bytes)

/-- `MemWrite(a, n, v)` (R11, R54): the low 8n bits of `v`, little-endian, or `AddrWrap(a, n)` and nothing written
(R55). -/
def memWrite (m : Memory) (a : Word) (n : Width) (v : Word) : Except Fault Memory :=
  if inMemory a n.bytes then
    .ok (match n with
      | .byte => m.write a.toNat (byteOf v 0)
      | .word => (m.write a.toNat (byteOf v 0)).write (a.toNat + 1) (byteOf v 1)
      | .triple => ((m.write a.toNat (byteOf v 0)).write (a.toNat + 1) (byteOf v 1)).write (a.toNat + 2) (byteOf v 2))
  else .error (.addrWrap a n.bytes)

/-- Go on with the value read from memory, or raise the access's fault (R13, R55). -/
def withRead (s : State) (a : Word) (n : Width) (k : Word → Result) : Result :=
  match memRead s.mem a n with
  | .ok v => k v
  | .error f => .fault f

/-- Go on with the state after a memory write, or raise the access's fault (R13, R55). -/
def withWrite (s : State) (a : Word) (n : Width) (v : Word) (k : State → Result) : Result :=
  match memWrite s.mem a n v with
  | .ok m => k { s with mem := m }
  | .error f => .fault f

/-- The instruction bytes at `pc`, as many as lie inside the memory, at most the longest instruction's four (R26, R29,
R69). -/
def fetchBytes (m : Memory) (pc : Word) : List Byte :=
  ((List.range 4).filter fun k => decide (pc.toNat + k < Config.memSize)).map fun k => m.read (pc.toNat + k)

/-! Stack. -/

/-- The address of byte `k` of the stack slot whose highest address is `t` (R57, D19). -/
def slotAddress (layout : StackSlotLayout) (t k : Nat) : Nat :=
  match layout with
  | .descending => t - k
  | .littleEndianLow => t - 2 + k

/-- Memory with a value stored in the stack slot whose highest address is `t` (R58). -/
def writeSlot (m : Memory) (t : Nat) (v : Word) (cfg : Configuration := Config.defaults) : Memory :=
  ((m.write (slotAddress cfg.stackSlotLayout t 0) (byteOf v 0)).write
    (slotAddress cfg.stackSlotLayout t 1) (byteOf v 1)).write
    (slotAddress cfg.stackSlotLayout t 2) (byteOf v 2)

/-- The value in the stack slot whose highest address is `t` (R59). -/
def readSlot (m : Memory) (t : Nat) (cfg : Configuration := Config.defaults) : Word :=
  joinBytes (m.read (slotAddress cfg.stackSlotLayout t 0)) (m.read (slotAddress cfg.stackSlotLayout t 1))
    (m.read (slotAddress cfg.stackSlotLayout t 2))

/-- `StackPush(v)` (R58): the slot is written at SP, then SP moves down by 3. `StackWrap` when SP is below 3 (R60). -/
def stackPush (v : Word) (s : State) (cfg : Configuration := Config.defaults) : Except Fault State :=
  if (s.reg .sp).toNat < 3 then .error (.stackWrap (s.reg .sp))
  else .ok ({ s with mem := writeSlot s.mem (s.reg .sp).toNat v cfg }.setReg .sp (s.reg .sp - 3))

/-- `StackPop()` (R59): SP moves up by 3, then the slot at the new SP is read. `StackWrap` when SP is above 0xFFFFFC
(R60). -/
def stackPop (s : State) (cfg : Configuration := Config.defaults) : Except Fault (Word × State) :=
  if (s.reg .sp).toNat > 0xFFFFFC then .error (.stackWrap (s.reg .sp))
  else .ok (readSlot s.mem ((s.reg .sp).toNat + 3) cfg, s.setReg .sp (s.reg .sp + 3))

/-- Go on with the state after a push, or raise its fault. -/
def withPush (v : Word) (s : State) (k : State → Result) (cfg : Configuration := Config.defaults) : Result :=
  match stackPush v s cfg with
  | .ok t => k t
  | .error f => .fault f

/-- Go on with the popped value and the state after the pop, or raise its fault. -/
def withPop (s : State) (k : Word → State → Result) (cfg : Configuration := Config.defaults) : Result :=
  match stackPop s cfg with
  | .ok (v, t) => k v t
  | .error f => .fault f

/-! Ends of an instruction. -/

/-- "pc advances by width" (R14, R27): `PcWrap` when the sequential advance would pass 0xFFFFFF (R30). -/
def advance (width : Nat) (s : State) : Result :=
  if s.pc.toNat + width > 0xFFFFFF then .fault (.pcWrap s.pc)
  else .next (s.setPc (s.pc + BitVec.ofNat 24 width))

/-- `halt(status, reason)` (R12, R110): the run state records both, and pc stays at the halting instruction (R27). -/
def haltWith (status : Word) (reason : HaltReason) (s : State) : Result :=
  .next { s with run := .halted status reason }

/-- The address of the vector table entry of a code 0x80 + n: `0xFF0000 + 3n` (R218). -/
def vectorAddress (code : Byte) : Word :=
  Config.vectorBase + 3 * ((code - Config.firstVectoredCode).setWidth 24)

/-- TAKING A VECTORED INTERRUPT (R217, R218): pc becomes the 24-bit vector table entry of the code. Nothing else changes:
no return address, register or flag is saved, and I stays as it is. There is no return from interrupt (R219). -/
def takeVector (code : Byte) (s : State) : Result :=
  withRead s (vectorAddress code) .triple fun target => .next (s.setPc target)

/-- The reset action of the host's `reset()` and of the reset service (R261): registers, flags, pc and the run state take
their reset values. Memory and the trace are unchanged, and so is the count of the host's draws. -/
def resetAction (s : State) (cfg : Configuration := Config.defaults) : State :=
  { s with
    regs := { ax := 0, bx := 0, cx := 0, dx := 0, si := 0, gi := 0,
              sp := Config.initialStack, bp := Config.initialStack }
    pc := Config.resetVector
    flags := flagMask .i cfg
    run := .running }

/-- Record a host-service transaction at the end of the trace (R43). -/
def State.record (s : State) (e : HostEvent) : State := { s with trace := s.trace ++ [e] }

/-- The host has supplied one more value (R12 "draw"; log entry 9). -/
def State.drawn (s : State) : State := { s with draws := s.draws + 1 }

end Sys2Proof.Machine
end

