-- ==== Sys2Proof/Machine/Operands.lean ====
section
/-! DEFINITION. What the instructions do with their operand forms (R82 to R88): the cluster's destination and source,
loads from and read-modify-writes of the byte and word pointer forms, the auto-increment load, and the jump on a flag.
The bits of the operand fields themselves are read in Decode.lean. -/

namespace Sys2Proof.Machine

/-- The cluster register `add` and `mov` write (parameter CLUSTER_DEST, D6). -/
def clusterDst (x y : Reg) (cfg : Configuration := Config.defaults) : Reg :=
  match cfg.clusterDest with
  | .x => x
  | .y => y

/-- The cluster register `add` and `mov` only read. -/
def clusterSrc (x y : Reg) (cfg : Configuration := Config.defaults) : Reg :=
  match cfg.clusterDest with
  | .x => y
  | .y => x

/-- Write a register and go past a `width`-byte instruction (R14). -/
def setRegAdvance (width : Nat) (r : Reg) (v : Word) (s : State) : Result := advance width (s.setReg r v)

/-- Forms byte-pointer-24 and word-pointer-24 as a source (R86): the zero-extended operand at `a` goes through `f` into
register `r`. -/
def loadInto (r : Reg) (n : Width) (a : Word) (f : Word → Word) (s : State) : Result :=
  withRead s a n fun v => setRegAdvance 4 r (f v) s

/-- Forms byte-pointer-24 and word-pointer-24 as a destination (R86): the low 8n bits of `v` are stored at `a`. -/
def storeAt (n : Width) (a : Word) (v : Word) (s : State) : Result :=
  withWrite s a n v (advance 4)

/-- Forms byte-pointer-24 and word-pointer-24 read and written (R132 to R135): the operand at `a` is replaced by `f` of
it, at the operand's own width. -/
def modifyAt (n : Width) (a : Word) (f : Word → Word) (s : State) : Result :=
  withRead s a n fun v => storeAt n a (f v) s

/-- The auto-increment load (R160 to R162): the operand at `x[x]` goes to `x[y]`, then `x[x]`, read after that write,
advances by the width. -/
def autoIncrementLoad (n : Width) (x y : Reg) (s : State) : Result :=
  withRead s (s.reg x) n fun v =>
    let t := s.setReg y v
    setRegAdvance 2 x (t.reg x + BitVec.ofNat 24 n.bytes) t

/-- A conditional jump that leaves the flags alone (R189): taken when flag `f` is `want`. -/
def jumpKeeping (f : Flag) (want : Bool) (t : Word) (s : State) (cfg : Configuration := Config.defaults) : Result :=
  if s.flag f cfg = want then .next (s.setPc t) else advance 4 s

/-- A conditional jump that clears the flag it tests when taken (R189): taken when flag `f` is set. -/
def jumpClearing (f : Flag) (t : Word) (s : State) (cfg : Configuration := Config.defaults) : Result :=
  if s.flag f cfg then .next ((s.setFlag f false cfg).setPc t) else advance 4 s

end Sys2Proof.Machine
end

