-- ==== Sys2Proof/Machine/Arith.lean ====
section
/-! DEFINITION. Addition and comparison (43_arith.md): addition wraps modulo 2^24 and writes no flag; `cmp` writes Z and N
only. -/

namespace Sys2Proof.Machine

/-- `add rx, ry` (R151). -/
def execAddRxRy (x y : Reg) (s : State) (cfg : Configuration := Config.defaults) : Result :=
  setRegAdvance 2 (clusterDst x y cfg) (s.reg (clusterDst x y cfg) + s.reg (clusterSrc x y cfg)) s

/-- `add r, imm` (R152). -/
def execAddRImm (r : Reg) (imm : Word) (s : State) : Result := setRegAdvance 4 r (s.reg r + imm) s

/-- `add r, byte [a]` (R153). -/
def execAddRByteA (r : Reg) (a : Word) (s : State) : Result := loadInto r .byte a (s.reg r + ·) s

/-- `add r, word [a]` (R154). -/
def execAddRWordA (r : Reg) (a : Word) (s : State) : Result := loadInto r .word a (s.reg r + ·) s

/-- `cmp r, imm` (R155). -/
def execCmpRImm (r : Reg) (imm : Word) (s : State) (cfg : Configuration := Config.defaults) : Result :=
  advance 4 (s.setCompareFlags (s.reg r) imm cfg)

end Sys2Proof.Machine
end

