-- ==== Sys2Proof/Machine/IncDec.lean ====
section
/-! DEFINITION. Increment and decrement (41_incdec.md): no flag is written, and a memory operand wraps at its own
width. -/

namespace Sys2Proof.Machine

/-- `inc r` (R130). -/
def execIncR (r : Reg) (s : State) : Result := setRegAdvance 2 r (s.reg r + 1) s

/-- `dec r` (R131). -/
def execDecR (r : Reg) (s : State) : Result := setRegAdvance 2 r (s.reg r - 1) s

/-- `inc byte [a]` (R132). -/
def execIncByteA (a : Word) (s : State) : Result := modifyAt .byte a (· + 1) s

/-- `dec byte [a]` (R133). -/
def execDecByteA (a : Word) (s : State) : Result := modifyAt .byte a (· - 1) s

/-- `inc word [a]` (R134). -/
def execIncWordA (a : Word) (s : State) : Result := modifyAt .word a (· + 1) s

/-- `dec word [a]` (R135). -/
def execDecWordA (a : Word) (s : State) : Result := modifyAt .word a (· - 1) s

end Sys2Proof.Machine
end

