-- ==== Sys2Proof/Machine/Interrupt.lean ====
section
/-! DEFINITION. The software interrupt (42_int.md) and the host services (60_exceptions.md). A value the host supplies is an
argument of its service; `hostService` supplies it from the free values of Config.lean (log entry 9). -/

namespace Sys2Proof.Machine

/-- exit (R224): the popped value becomes the status, and the core halts with pc at the `int`. -/
def serviceExit (s : State) (cfg : Configuration := Config.defaults) : Result :=
  withPop s (fun v t => haltWith v (.exit v) t) cfg

/-- console-read (R225): the host's byte is pushed, zero-extended. With no answer the core is blocked in the step: the
state does not change, and the same step is taken again (U11, R268; log entry 10). -/
def serviceConsoleRead (answer : Option Byte) (s : State) (cfg : Configuration := Config.defaults) : Result :=
  match answer with
  | none => .next s
  | some b => withPush (b.setWidth 24) s (fun t => advance 2 ((t.record (.consoleIn b)).drawn)) cfg

/-- console-write (R226): bits 7:0 of the popped value are emitted. -/
def serviceConsoleWrite (s : State) (cfg : Configuration := Config.defaults) : Result :=
  withPop s (fun v t => advance 2 (t.record (.consoleOut (byteOf v 0)))) cfg

/-- reset (R227): the reset action; pc is not advanced and memory not changed. -/
def serviceReset (s : State) (cfg : Configuration := Config.defaults) : Result := .next (resetAction s cfg)

/-- video-flush (R228): a request to the display, nothing else. -/
def serviceVideoFlush (s : State) : Result := advance 2 (s.record .displayFlush)

/-- random (R229): the host's 16-bit value goes, zero-extended, to the service register. -/
def serviceRandom (v : BitVec 16) (s : State) (cfg : Configuration := Config.defaults) : Result :=
  advance 2 (((s.setReg cfg.serviceReg (v.setWidth 24)).record (.random v)).drawn)

/-- clock (R230): the host's packed date/time value goes to the service register. -/
def serviceClock (v : Word) (s : State) (cfg : Configuration := Config.defaults) : Result :=
  advance 2 (((s.setReg cfg.serviceReg v).record (.clock v)).drawn)

/-- delay (R231): a sleep request of the service register's milliseconds, no state but the trace. -/
def serviceDelay (s : State) (cfg : Configuration := Config.defaults) : Result :=
  advance 2 (s.record (.delay (s.reg cfg.serviceReg)))

/-- The milliseconds the core asks the host's sleep primitive for when the trace records `Delay(ms)` (R231); no state
depends on it (D28; log entry 12). -/
def sleepRequest (ms : Word) (cfg : Configuration := Config.defaults) : Nat := min ms.toNat cfg.delayCapMs

/-- Perform one host service (R224 to R232); a draw takes the host's next free value. -/
def hostService (svc : HostService) (s : State) (cfg : Configuration := Config.defaults) : Result :=
  match svc with
  | .exit => serviceExit s cfg
  | .consoleRead => serviceConsoleRead (Config.consoleIn s.draws) s cfg
  | .consoleWrite => serviceConsoleWrite s cfg
  | .reset => serviceReset s cfg
  | .videoFlush => serviceVideoFlush s
  | .random => serviceRandom (Config.random s.draws) s cfg
  | .clock => serviceClock (Config.clock s.draws) s cfg
  | .delay => serviceDelay s cfg

/-- `int code` (R140): a no-op with I clear (R216), a vectored jump for a code of 0x80 or above (R217), else the host
service the code names (R222), or the illegal-hardware-interrupt halt (R212). -/
def execIntCode (code : Byte) (s : State) (cfg : Configuration := Config.defaults) : Result :=
  if s.flag .i cfg then
    if Config.firstVectoredCode ≤ code then takeVector code s
    else match cfg.hostServiceMap code with
      | some svc => hostService svc s cfg
      | none => haltWith Config.illegalStatus (.illegalHwInterrupt code s.pc) s
  else advance 2 s

end Sys2Proof.Machine
end

