-- ==== Sys2Proof/Machine/Jumps.lean ====
section
/-! DEFINITION. Jumps (45_jumps.md): the target is an absolute 24-bit immediate, and a taken `je`, `jc`, `jn` or `ji` clears
the flag it tests. `js` jumps when Negative is CLEAR, as the source tabulates it (R185). -/

namespace Sys2Proof.Machine

/-- `jmp t` (R180). -/
def execJmpT (t : Word) (s : State) : Result := .next (s.setPc t)

/-- `je t` (R181). -/
def execJeT (t : Word) (s : State) (cfg : Configuration := Config.defaults) : Result :=
  jumpClearing .z t s cfg

/-- `jne t` (R182). -/
def execJneT (t : Word) (s : State) (cfg : Configuration := Config.defaults) : Result :=
  jumpKeeping .z false t s cfg

/-- `jc t` (R183). -/
def execJcT (t : Word) (s : State) (cfg : Configuration := Config.defaults) : Result :=
  jumpClearing .c t s cfg

/-- `jnc t` (R184). -/
def execJncT (t : Word) (s : State) (cfg : Configuration := Config.defaults) : Result :=
  jumpKeeping .c false t s cfg

/-- `js t` (R185). -/
def execJsT (t : Word) (s : State) (cfg : Configuration := Config.defaults) : Result :=
  jumpKeeping .n false t s cfg

/-- `jn t` (R186). -/
def execJnT (t : Word) (s : State) (cfg : Configuration := Config.defaults) : Result :=
  jumpClearing .n t s cfg

/-- `ji t` (R187). -/
def execJiT (t : Word) (s : State) (cfg : Configuration := Config.defaults) : Result :=
  jumpClearing .i t s cfg

/-- `jni t` (R188). -/
def execJniT (t : Word) (s : State) (cfg : Configuration := Config.defaults) : Result :=
  jumpKeeping .i false t s cfg

end Sys2Proof.Machine
end

