-- ==== Sys2Proof/Machine/LoadMove.lean ====
section
/-! DEFINITION. Auto-increment loads and moves (44_load_move.md): loads zero-extend, stores keep the low bytes, and no flag
is written. -/

namespace Sys2Proof.Machine

/-- `lodb rx, ry` (R160). -/
def execLodbRxRy (x y : Reg) (s : State) : Result := autoIncrementLoad .byte x y s

/-- `lodw rx, ry` (R161). -/
def execLodwRxRy (x y : Reg) (s : State) : Result := autoIncrementLoad .word x y s

/-- `lodh rx, ry` (R162). -/
def execLodhRxRy (x y : Reg) (s : State) : Result := autoIncrementLoad .triple x y s

/-- `mov rx, ry` (R163). -/
def execMovRxRy (x y : Reg) (s : State) (cfg : Configuration := Config.defaults) : Result :=
  setRegAdvance 2 (clusterDst x y cfg) (s.reg (clusterSrc x y cfg)) s

/-- `mov r, imm` (R164). -/
def execMovRImm (r : Reg) (imm : Word) (s : State) : Result := setRegAdvance 4 r imm s

/-- `mov r, byte [a]` (R165). -/
def execMovRByteA (r : Reg) (a : Word) (s : State) : Result := loadInto r .byte a id s

/-- `mov r, word [a]` (R166). -/
def execMovRWordA (r : Reg) (a : Word) (s : State) : Result := loadInto r .word a id s

/-- `mov byte [a], r` (R167). -/
def execMovByteAR (a : Word) (r : Reg) (s : State) : Result := storeAt .byte a (s.reg r) s

/-- `mov word [a], r` (R168). -/
def execMovWordAR (a : Word) (r : Reg) (s : State) : Result := storeAt .word a (s.reg r) s

end Sys2Proof.Machine
end

