-- ==== Sys2Proof/Machine/Stack.lean ====
section
/-! DEFINITION. Stack push (46_stack.md). -/

namespace Sys2Proof.Machine

/-- `push imm` (R200). -/
def execPushImm (imm : Word) (s : State) (cfg : Configuration := Config.defaults) : Result :=
  withPush imm s (advance 4) cfg

/-- `push r` (R201): the register is read before the push, so `push SP` stores the old SP. -/
def execPushR (r : Reg) (s : State) (cfg : Configuration := Config.defaults) : Result :=
  withPush (s.reg r) s (advance 2) cfg

end Sys2Proof.Machine
end

