-- ==== Sys2Proof/Machine/System.lean ====
section
/-! DEFINITION. `hlt`, `trap`, the page escape and the illegal-instruction handler (40_system.md). -/

namespace Sys2Proof.Machine

/-- `hlt` (R112): halt with status 0. -/
def execHlt (s : State) : Result := haltWith 0 .hlt s

/-- `trap` (R113): the spec gives it no behaviour and asks for the model fault `Unmodelled(trap, pc)`. -/
def execTrap (s : State) : Result := .fault (.unmodelledTrap s.pc)

/-- The illegal-instruction handler (R115, R116, R211): halt with status 1, naming the opcode bytes and the pc. -/
def haltIllegal (opcodes : List Byte) (s : State) : Result :=
  haltWith Config.illegalStatus (.illegalInstruction opcodes s.pc) s

/-- The page escape (R114): the second byte selects a slot of the extension page, and an illegal slot halts, naming both
bytes (R116); a configured extension instruction has a rule of its own. -/
def execEscapeE (e : Byte) (s : State) (cfg : Configuration := Config.defaults) : Result :=
  match cfg.extOpcodeMap e with
  | .illegal => haltIllegal [Config.pageEscape, e] s
  | .instruction rule => rule s

end Sys2Proof.Machine
end

