-- ==== Sys2Proof/Machine/Dispatch.lean ====
section
/-! DEFINITION. The dispatch table (R96): one arm per instruction, each one direct call of its meaning. -/

namespace Sys2Proof.Machine

def exec (i : Instr) (s : State) : Host.Outcome State Fault Refusal :=
  match i with
  | .hlt => Sys2Proof.Machine.execHlt s
  | .trap => Sys2Proof.Machine.execTrap s
  | .incR r => Sys2Proof.Machine.execIncR r s
  | .decR r => Sys2Proof.Machine.execDecR r s
  | .incByteA a => Sys2Proof.Machine.execIncByteA a s
  | .decByteA a => Sys2Proof.Machine.execDecByteA a s
  | .incWordA a => Sys2Proof.Machine.execIncWordA a s
  | .decWordA a => Sys2Proof.Machine.execDecWordA a s
  | .intCode code => Sys2Proof.Machine.execIntCode code s
  | .addRxRy x y => Sys2Proof.Machine.execAddRxRy x y s
  | .movRxRy x y => Sys2Proof.Machine.execMovRxRy x y s
  | .lodbRxRy x y => Sys2Proof.Machine.execLodbRxRy x y s
  | .lodwRxRy x y => Sys2Proof.Machine.execLodwRxRy x y s
  | .lodhRxRy x y => Sys2Proof.Machine.execLodhRxRy x y s
  | .escapeE e => Sys2Proof.Machine.execEscapeE e s
  | .jmpT t => Sys2Proof.Machine.execJmpT t s
  | .jeT t => Sys2Proof.Machine.execJeT t s
  | .jneT t => Sys2Proof.Machine.execJneT t s
  | .jcT t => Sys2Proof.Machine.execJcT t s
  | .jncT t => Sys2Proof.Machine.execJncT t s
  | .jsT t => Sys2Proof.Machine.execJsT t s
  | .jnT t => Sys2Proof.Machine.execJnT t s
  | .jiT t => Sys2Proof.Machine.execJiT t s
  | .jniT t => Sys2Proof.Machine.execJniT t s
  | .pushImm imm => Sys2Proof.Machine.execPushImm imm s
  | .pushR r => Sys2Proof.Machine.execPushR r s
  | .movRImm r imm => Sys2Proof.Machine.execMovRImm r imm s
  | .movRByteA r a => Sys2Proof.Machine.execMovRByteA r a s
  | .movRWordA r a => Sys2Proof.Machine.execMovRWordA r a s
  | .movByteAR a r => Sys2Proof.Machine.execMovByteAR a r s
  | .movWordAR a r => Sys2Proof.Machine.execMovWordAR a r s
  | .addRImm r imm => Sys2Proof.Machine.execAddRImm r imm s
  | .addRByteA r a => Sys2Proof.Machine.execAddRByteA r a s
  | .addRWordA r a => Sys2Proof.Machine.execAddRWordA r a s
  | .cmpRImm r imm => Sys2Proof.Machine.execCmpRImm r imm s

end Sys2Proof.Machine
end

