-- ==== Sys2Proof/WellFormed.lean ====
section
/-! DEFINITION. When an instruction is well formed. Its operands cannot be out of range (a register is one of eight
names, an immediate, address or target a 24-bit value, a code a byte), so what is left to check is that the opcode map
in force can encode it: OPCODE_MAP is a configuration parameter (R8, 30_encoding.md's warning), and a map may leave a
handler out or give it a base that has no room for the register range. Beside it stands when a whole configuration is
one that the spec admits. -/

namespace Sys2Proof

/-- The row that gives a handler its opcode in an opcode map. -/
def rowOf (rows : List OpcodeRow) (h : Opcode) : Option OpcodeRow :=
  rows.find? fun row => row.opcode == h

/-- A row's range of opcode bytes ends at 0xFF or below (R84). -/
def OpcodeRow.fits (row : OpcodeRow) : Bool :=
  decide (row.base.toNat + row.opcode.format.opcodeCount ≤ 0x100)

/-- A row takes an opcode byte: the byte lies in the contiguous range that starts at the row's base (R84, R90). -/
def OpcodeRow.selects (op : Byte) (row : OpcodeRow) : Bool :=
  decide (row.base.toNat ≤ op.toNat ∧ op.toNat < row.base.toNat + row.opcode.format.opcodeCount)

/-- An instruction is well formed under an opcode map when the map has a row for its handler (R90, R96) and that row's
range leaves room for the eight registers (R84). -/
def Instr.wellFormedIn (rows : List OpcodeRow) (i : Instr) : Bool :=
  match rowOf rows i.opcode with
  | some row => row.fits
  | none => false

/-- Well formed under the map of a configuration (R90). -/
def Instr.wellFormed (i : Instr) (cfg : Machine.Configuration := Config.defaults) : Bool :=
  i.wellFormedIn cfg.opcodeRows

/-- The configurations the spec admits: what the source fixes about a parameter that it leaves open. -/
structure Machine.Configuration.Valid (cfg : Machine.Configuration) : Prop where
  /-- An opcode byte has one meaning (R90, R96). -/
  rowsDisjoint : ∀ op : Byte, (cfg.opcodeRows.filter (OpcodeRow.selects op)).length ≤ 1
  /-- The page escape is 0x0F, and no other byte is (R7, R91). -/
  pageEscape : ∀ op : Byte, ((cfg.opcodeRows.find? (OpcodeRow.selects op)).map OpcodeRow.opcode = some .escapeE ↔
    op = Config.pageEscape)
  /-- The eight indices name the eight registers (R21). -/
  everyRegister : ∀ r : Reg, ∃ k : BitVec 3, cfg.regOfIndex k = r
  /-- The flags have four bits of the one byte (R31). -/
  flagInByte : ∀ f : Flag, cfg.flagBit f < 8
  flagsApart : ∀ f g : Flag, cfg.flagBit f = cfg.flagBit g → f = g

end Sys2Proof
end

