-- ==== Sys2Proof/Decode.lean ====
section
/-! DEFINITION. The decoder, total on any bytes and rejecting by name, and after it the encoder, both from the spec's
encoding tables (R82 to R90), under any configuration. -/

namespace Sys2Proof

/-- Why bytes do not decode. -/
inductive DecodeError where
  /-- The opcode map sends this opcode byte to Illegal (R92). -/
  | illegalOpcode (op : Byte)
  /-- The instruction needs `width` bytes and fewer are given (R29). -/
  | truncated (width : Nat)
  deriving DecidableEq, Repr

/-- The row of `OPCODE_MAP` that takes an opcode byte (R90). -/
def opcodeRow (op : Byte) (cfg : Machine.Configuration := Config.defaults) : Option OpcodeRow :=
  cfg.opcodeRows.find? (OpcodeRow.selects op)

/-- `OPCODE_MAP` as a total function of the opcode byte, `none` for Illegal (R90, R96). -/
def opcodeMap (op : Byte) (cfg : Machine.Configuration := Config.defaults) : Option Opcode :=
  (opcodeRow op cfg).map OpcodeRow.opcode

/-- Form register-direct: bits 2:0 of the register byte, the others ignored (R83). -/
def regField (b : Byte) (cfg : Machine.Configuration := Config.defaults) : Reg := cfg.regOfIndex (b.extractLsb' 0 3)

/-- Form register-in-opcode: opcode - base is the register index (R84). -/
def opcodeIndex (op : Byte) (row : OpcodeRow) : BitVec 3 := (op - row.base).extractLsb' 0 3

/-- The cluster's x field: bits 5:3 (R87). -/
def clusterX (b : Byte) (cfg : Machine.Configuration := Config.defaults) : Reg := cfg.regOfIndex (b.extractLsb' 3 3)

/-- The cluster's y field: bits 2:0 (R87). -/
def clusterY (b : Byte) (cfg : Machine.Configuration := Config.defaults) : Reg := cfg.regOfIndex (b.extractLsb' 0 3)

/-- Form immediate-24: bytes 1 to 3 little-endian (R85, R86). -/
def imm24 (operands : List Byte) : Word :=
  joinBytes (operands.getD 0 0) (operands.getD 1 0) (operands.getD 2 0)

/-- The instruction a handler makes of its operand bytes (R82 to R90); `k` is the register index that a
register-in-opcode byte holds. -/
def instrOf (h : Opcode) (k : BitVec 3) (operands : List Byte) (cfg : Machine.Configuration := Config.defaults) : Instr :=
  let b := operands.headD 0
  let v := imm24 operands
  match h with
  | .hlt => .hlt
  | .trap => .trap
  | .incR => .incR (regField b cfg)
  | .decR => .decR (regField b cfg)
  | .incByteA => .incByteA v
  | .decByteA => .decByteA v
  | .incWordA => .incWordA v
  | .decWordA => .decWordA v
  | .intCode => .intCode b
  | .addRxRy => .addRxRy (clusterX b cfg) (clusterY b cfg)
  | .movRxRy => .movRxRy (clusterX b cfg) (clusterY b cfg)
  | .lodbRxRy => .lodbRxRy (clusterX b cfg) (clusterY b cfg)
  | .lodwRxRy => .lodwRxRy (clusterX b cfg) (clusterY b cfg)
  | .lodhRxRy => .lodhRxRy (clusterX b cfg) (clusterY b cfg)
  | .escapeE => .escapeE b
  | .jmpT => .jmpT v
  | .jeT => .jeT v
  | .jneT => .jneT v
  | .jcT => .jcT v
  | .jncT => .jncT v
  | .jsT => .jsT v
  | .jnT => .jnT v
  | .jiT => .jiT v
  | .jniT => .jniT v
  | .pushImm => .pushImm v
  | .pushR => .pushR (regField b cfg)
  | .movRImm => .movRImm (cfg.regOfIndex k) v
  | .movRByteA => .movRByteA (cfg.regOfIndex k) v
  | .movRWordA => .movRWordA (cfg.regOfIndex k) v
  | .movByteAR => .movByteAR v (cfg.regOfIndex k)
  | .movWordAR => .movWordAR v (cfg.regOfIndex k)
  | .addRImm => .addRImm (cfg.regOfIndex k) v
  | .addRByteA => .addRByteA (cfg.regOfIndex k) v
  | .addRWordA => .addRWordA (cfg.regOfIndex k) v
  | .cmpRImm => .cmpRImm (cfg.regOfIndex k) v

/-- Decode one instruction from the front of a byte list and return it with the bytes after it. The opcode byte alone
decides the length (R80), and an illegal opcode needs no operand bytes (R92). -/
def decode (bytes : List Byte) (cfg : Machine.Configuration := Config.defaults) :
    Except DecodeError (Instr × List Byte) :=
  match bytes with
  | [] => .error (.truncated 1)
  | op :: rest =>
    match opcodeRow op cfg with
    | none => .error (.illegalOpcode op)
    | some row =>
      if rest.length + 1 < row.opcode.format.width then .error (.truncated row.opcode.format.width)
      else .ok (instrOf row.opcode (opcodeIndex op row) rest cfg, rest.drop (row.opcode.format.width - 1))

/-! The encoder. -/

/-- The base opcode byte of a handler in the map in force (R90). A handler the map leaves out has no encoding; the
encoder then writes the byte 0x00. -/
def baseOpcode (h : Opcode) (cfg : Machine.Configuration := Config.defaults) : Byte :=
  match rowOf cfg.opcodeRows h with
  | some row => row.base
  | none => 0x00

/-- `REG_INDEX` read the other way: the first index that names the register (R21). -/
def indexOfReg (r : Reg) (cfg : Machine.Configuration := Config.defaults) : BitVec 3 :=
  (([0, 1, 2, 3, 4, 5, 6, 7] : List (BitVec 3)).find? fun k => cfg.regOfIndex k == r).getD 0

/-- The register byte of form register-direct, its ignored bits zero (R83). -/
def regByte (r : Reg) (cfg : Machine.Configuration := Config.defaults) : Byte := (indexOfReg r cfg).setWidth 8

/-- The cluster byte, its ignored bits zero (R87). -/
def clusterByte (x y : Reg) (cfg : Machine.Configuration := Config.defaults) : Byte :=
  (0#2 ++ indexOfReg x cfg ++ indexOfReg y cfg : BitVec (2 + 3 + 3))

/-- The opcode byte of form register-in-opcode: base + register index (R84). -/
def opcodeWithReg (h : Opcode) (r : Reg) (cfg : Machine.Configuration := Config.defaults) : Byte :=
  baseOpcode h cfg + (indexOfReg r cfg).setWidth 8

/-- The three bytes of a 24-bit field, little-endian (R85). -/
def immBytes (v : Word) : List Byte := [byteOf v 0, byteOf v 1, byteOf v 2]

/-- The bytes of a well-formed instruction, lowest address first (R81, R89, R90). -/
def encode (i : Instr) (cfg : Machine.Configuration := Config.defaults) : List Byte :=
  match i with
  | .hlt => [baseOpcode .hlt cfg]
  | .trap => [baseOpcode .trap cfg]
  | .incR r => [baseOpcode .incR cfg, regByte r cfg]
  | .decR r => [baseOpcode .decR cfg, regByte r cfg]
  | .incByteA a => baseOpcode .incByteA cfg :: immBytes a
  | .decByteA a => baseOpcode .decByteA cfg :: immBytes a
  | .incWordA a => baseOpcode .incWordA cfg :: immBytes a
  | .decWordA a => baseOpcode .decWordA cfg :: immBytes a
  | .intCode code => [baseOpcode .intCode cfg, code]
  | .addRxRy x y => [baseOpcode .addRxRy cfg, clusterByte x y cfg]
  | .movRxRy x y => [baseOpcode .movRxRy cfg, clusterByte x y cfg]
  | .lodbRxRy x y => [baseOpcode .lodbRxRy cfg, clusterByte x y cfg]
  | .lodwRxRy x y => [baseOpcode .lodwRxRy cfg, clusterByte x y cfg]
  | .lodhRxRy x y => [baseOpcode .lodhRxRy cfg, clusterByte x y cfg]
  | .escapeE e => [baseOpcode .escapeE cfg, e]
  | .jmpT t => baseOpcode .jmpT cfg :: immBytes t
  | .jeT t => baseOpcode .jeT cfg :: immBytes t
  | .jneT t => baseOpcode .jneT cfg :: immBytes t
  | .jcT t => baseOpcode .jcT cfg :: immBytes t
  | .jncT t => baseOpcode .jncT cfg :: immBytes t
  | .jsT t => baseOpcode .jsT cfg :: immBytes t
  | .jnT t => baseOpcode .jnT cfg :: immBytes t
  | .jiT t => baseOpcode .jiT cfg :: immBytes t
  | .jniT t => baseOpcode .jniT cfg :: immBytes t
  | .pushImm imm => baseOpcode .pushImm cfg :: immBytes imm
  | .pushR r => [baseOpcode .pushR cfg, regByte r cfg]
  | .movRImm r imm => opcodeWithReg .movRImm r cfg :: immBytes imm
  | .movRByteA r a => opcodeWithReg .movRByteA r cfg :: immBytes a
  | .movRWordA r a => opcodeWithReg .movRWordA r cfg :: immBytes a
  | .movByteAR a r => opcodeWithReg .movByteAR r cfg :: immBytes a
  | .movWordAR a r => opcodeWithReg .movWordAR r cfg :: immBytes a
  | .addRImm r imm => opcodeWithReg .addRImm r cfg :: immBytes imm
  | .addRByteA r a => opcodeWithReg .addRByteA r cfg :: immBytes a
  | .addRWordA r a => opcodeWithReg .addRWordA r cfg :: immBytes a
  | .cmpRImm r imm => opcodeWithReg .cmpRImm r cfg :: immBytes imm

/-! Words of spec/opcode_table.json. -/

/-- The four bytes of a table word of `nbits` bits, first byte in bits 7:0, every bit above `nbits` zero (R81, R89). -/
def tableBytes (nbits w : Nat) : List Byte :=
  let v := w % 2 ^ nbits
  [BitVec.ofNat 8 v, BitVec.ofNat 8 (v / 2 ^ 8), BitVec.ofNat 8 (v / 2 ^ 16), BitVec.ofNat 8 (v / 2 ^ 24)]

/-- The instruction the decoder reads from a table word. -/
def decodeTableWord (nbits w : Nat) : Option Instr :=
  match decode (tableBytes nbits w) with
  | .ok (i, _) => some i
  | .error _ => none

end Sys2Proof
end

