-- ==== Sys2Proof/Machine/Fetch.lean ====
section
/-! DEFINITION. Fetching, dispatching and stepping under a configuration (R8, R110, R29), and placing bytes where the next fetch reads. -/

namespace Sys2Proof.Machine

/-- The instructions under a configuration (R8): `exec` is this at the default one, and an instruction that depends on no
parameter is `exec`'s under every one. -/
def execIn (cfg : Configuration) (i : Instr) (s : State) : Result :=
  match i with
  | .escapeE e => execEscapeE e s cfg
  | .intCode code => execIntCode code s cfg
  | .addRxRy x y => execAddRxRy x y s cfg
  | .movRxRy x y => execMovRxRy x y s cfg
  | .cmpRImm r imm => execCmpRImm r imm s cfg
  | .jeT t => execJeT t s cfg
  | .jneT t => execJneT t s cfg
  | .jcT t => execJcT t s cfg
  | .jncT t => execJncT t s cfg
  | .jsT t => execJsT t s cfg
  | .jnT t => execJnT t s cfg
  | .jiT t => execJiT t s cfg
  | .jniT t => execJniT t s cfg
  | .pushImm imm => execPushImm imm s cfg
  | .pushR r => execPushR r s cfg
  | .hlt | .trap | .incR _ | .decR _ | .incByteA _ | .decByteA _ | .incWordA _ | .decWordA _
  | .lodbRxRy _ _ | .lodwRxRy _ _ | .lodhRxRy _ _ | .jmpT _
  | .movRImm _ _ | .movRByteA _ _ | .movRWordA _ _ | .movByteAR _ _ | .movWordAR _ _
  | .addRImm _ _ | .addRByteA _ _ | .addRWordA _ _ => exec i s

/-- A running core's step (R110, R234): the bytes at pc are decoded and the instruction executed. An illegal opcode halts
before any operand byte is looked at (R115), and an instruction that runs past the top of memory raises `AddrWrap`
(R29). -/
def fetchExecute (s : State) (cfg : Configuration := Config.defaults) : Result :=
  match decode (fetchBytes s.mem s.pc) cfg with
  | .ok (i, _) => execIn cfg i s
  | .error (.illegalOpcode op) => haltIllegal [op] s
  | .error (.truncated width) => .fault (.addrWrap s.pc width)

/-- One step under a configuration: a halted core does not change (R111); a running core fetches, decodes and executes
exactly one instruction (R110). -/
def stepIn (cfg : Configuration) (s : State) : Result :=
  match s.run with
  | .halted _ _ => .next s
  | .running => fetchExecute s cfg

/-- Memory with a byte list stored from an address on, as far as the memory goes. -/
def storeBytes (m : Memory) (a : Nat) : List Byte → Memory
  | [] => m
  | b :: bs => if a < Config.memSize then storeBytes (m.write a b) (a + 1) bs else m

/-- `s` with bytes stored at pc and the core running. -/
def placeBytes (bs : List Byte) (s : State) : State :=
  { s with mem := storeBytes s.mem s.pc.toNat bs, run := .running }

end Sys2Proof.Machine
end

