-- ==== Sys2Proof/Machine/Step.lean ====
section
/-! DEFINITION. One step of the core (R110, R111). -/

namespace Sys2Proof.Machine

/-- One step of the core with the spec's default parameters (R8, R110, R111). -/
def step (s : State) : Host.Outcome State Fault Refusal := stepIn Config.defaults s

/-- `s` with a table word's instruction stored at pc and the core running, so that the next step runs it (log entry
14). -/
def State.withFetchWord (s : State) (nbits w : Nat) : State :=
  placeBytes (tableBytes nbits w) s

end Sys2Proof.Machine
end

