-- ==== Sys2Proof/Machine/HostControl.lean ====
section
/-! DEFINITION. The host's control and status interface (R6, 70_reset_and_hazards.md): `create`, `reset`, `step` and `run`
with the status they report, the memory accessors, and the boot sequence. Every host action comes between two steps
(R274). -/

namespace Sys2Proof.Machine

/-- What `step` and `run` return: whether the core has halted, and the status code (R110, R263). -/
structure Report where
  halted : Bool
  status : Word
  deriving DecidableEq, Repr

/-- The report on a state: status 0 while the core goes on, the recorded status once it has halted (R41, R263). -/
def State.report (s : State) : Report :=
  match s.run with
  | .running => ⟨false, 0⟩
  | .halted status _ => ⟨true, status⟩

/-- `create(memorySize)` (R260): the zero-filled state. The size must be 2^24 (R51); another size is no create. -/
def hostCreate (memorySize : Nat) : Option State :=
  if memorySize = Config.memSize then some State.create else none

/-- `reset()` (R261). -/
def hostReset (s : State) (cfg : Configuration := Config.defaults) : State := resetAction s cfg

/-- `step()` (R263): one step, with its report. -/
def hostStep (s : State) (cfg : Configuration := Config.defaults) : Host.Outcome (State × Report) Fault Refusal :=
  match stepIn cfg s with
  | .next t => .next (t, t.report)
  | .fault f => .fault f
  | .refused r => .refused r

/-- `run()` (R118, R264), as far as `fuel` steps go: steps until the core halts and reports the status, or ends with the
fault. `none` when the core has not halted by then: a run that never halts does not return. -/
def hostRun (fuel : Nat) (s : State) (cfg : Configuration := Config.defaults) : Option (Host.Outcome (State × Report) Fault Refusal) :=
  match fuel with
  | 0 => none
  | fuel + 1 =>
    match stepIn cfg s with
    | .next t => if t.report.halted then some (.next (t, t.report)) else hostRun fuel t cfg
    | .fault f => some (.fault f)
    | .refused r => some (.refused r)

/-- `readByte(addr)` and the 16- and 24-bit variants (R72, R265). -/
def hostRead (n : Width) (a : Word) (s : State) : Except Fault Word := memRead s.mem a n

/-- `writeByte(addr, val)` and the 16- and 24-bit variants (R72, R265): memory only. -/
def hostWrite (n : Width) (a : Word) (v : Word) (s : State) : Except Fault State :=
  match memWrite s.mem a n v with
  | .ok m => .ok { s with mem := m }
  | .error f => .error f

/-- Load an image, a list of (address, byte) pairs, with byte writes (R265, R266 step 2). -/
def loadImage (image : List (Word × Byte)) (s : State) : State :=
  image.foldl (fun t cell => { t with mem := t.mem.write cell.1.toNat cell.2 }) s

/-- The launch state of an image (R266, R267): create, load, reset. -/
def State.launch (image : List (Word × Byte)) (cfg : Configuration := Config.defaults) : State :=
  hostReset (loadImage image State.create) cfg

/-- The machine with its parameters as an argument (R8): `Sys2Proof.core` is this at the default configuration. -/
def configuredCore (cfg : Configuration) : Host.Core :=
  { State := State, Fault := Fault, Refusal := Refusal, step := stepIn cfg, reset := State.launch [] cfg }

end Sys2Proof.Machine
end

