-- ==== Sys2Proof/Safety.lean ====
section
/-! DEFINITION. What the claims are stated in: the invariant of the machine, the states the host's interfaces reach, a safe
run, and what it means that a state differs from another only in named places. -/

namespace Sys2Proof.Machine

/-- A halt's status agrees with its reason (R41, R210): 0 for `hlt`, the value for exit, 1 for both illegal halts. -/
def RunState.coherent : RunState → Bool
  | .running => true
  | .halted status .hlt => status == 0
  | .halted status (.exit v) => status == v
  | .halted status (.illegalInstruction _ _) => status == 1
  | .halted status (.illegalHwInterrupt _ _) => status == 1

/-- The invariant: memory is in canonical form, the reserved flag bits are zero (R37), Carry is clear (R36) and a halt's
status agrees with its reason (R41). -/
structure State.Inv (s : State) : Prop where
  memory : s.mem.wf = true
  reserved : s.flags &&& 0xF0#8 = 0
  carry : s.flag .c = false
  halt : s.run.coherent = true

/-- The states the host's interfaces reach (R6, R36): from `create` by host writes, `reset` and steps. -/
inductive Reachable : State → Prop where
  | create : Reachable State.create
  | hostWrite {s t : State} {n : Width} {a v : Word} : Reachable s → Sys2Proof.Machine.hostWrite n a v s = .ok t → Reachable t
  | reset {s : State} : Reachable s → Reachable (hostReset s)
  | step {s t : State} : Reachable s → Sys2Proof.Machine.step s = .next t → Reachable t

/-- A safe run of `k` steps: no step faults or is refused (R214, R268). -/
def SafeFor (k : Nat) (s : State) : Prop := ∃ t, Sys2Proof.core.run k s = .next t

/-- `code` runs the host service `svc` in `s`: I is set, the code is below 0x80, and HOST_SERVICE_MAP names the service
(R140, R222, R223). -/
def Runs (code : Byte) (svc : HostService) (s : State) : Prop :=
  s.flag .i = true ∧ code < 0x80 ∧ Config.hostServiceMap code = some svc

/-- `t` differs from `s` at most in pc, the registers of `regs`, the flags of `flags` and the memory bytes of `bytes`:
every other register, flag, flags-byte bit and memory byte, the run state, the trace and the count of draws are as
before. -/
structure OnlyChanges (s t : State) (regs : List Reg) (flags : List Flag) (bytes : List Nat) : Prop where
  registers : ∀ r, r ∉ regs → t.reg r = s.reg r
  flagBits : ∀ f, f ∉ flags → t.flag f = s.flag f
  reservedBits : t.flags &&& 0xF0#8 = s.flags &&& 0xF0#8
  memory : ∀ a, a ∉ bytes → t.mem.read a = s.mem.read a
  runState : t.run = s.run
  traceKept : t.trace = s.trace
  drawsKept : t.draws = s.draws

end Sys2Proof.Machine
end

