-- ==== Sys2Proof/Certificates/Slice0/Obligations.lean ====
section
/-! DEFINITION. The statements for the provers, file by file of the spec. Where a statement rests on a decision of the spec
(D<n> of 92_eei_decisions.md) or on an entry of the assumption log, its docstring names it. -/

namespace Sys2Proof.Claims

open Sys2Proof Sys2Proof.Machine

/-- The `n` bytes from address `a` put together little-endian, as the sum of R53. -/
def bytesAt (m : Memory) : Nat → Nat → Nat
  | _, 0 => 0
  | a, n + 1 => (m.read a).toNat + 256 * bytesAt m (a + 1) n

/-- `i` has no operand: an opcode of its handler alone decodes to it (R82). -/
def DecodesN (h : Opcode) (i : Instr) : Prop :=
  ∀ op rest, opcodeMap op = some h → decode (op :: rest) = .ok (i, rest)

/-- Format R (R83, R89): r = byte1[2:0], bits 7:3 ignored, width 2. -/
def DecodesR (h : Opcode) (mk : Reg → Instr) : Prop :=
  ∀ op b rest, opcodeMap op = some h →
    decode (op :: b :: rest) = .ok (mk (Config.regOfIndex (b.extractLsb' 0 3)), rest)

/-- Format C (R87, R89): x = byte1[5:3], y = byte1[2:0], bits 7:6 ignored, width 2. -/
def DecodesC (h : Opcode) (mk : Reg → Reg → Instr) : Prop :=
  ∀ op b rest, opcodeMap op = some h →
    decode (op :: b :: rest) =
      .ok (mk (Config.regOfIndex (b.extractLsb' 3 3)) (Config.regOfIndex (b.extractLsb' 0 3)), rest)

/-- Formats I8 and E (R88, R89): one operand byte, width 2. -/
def DecodesB (h : Opcode) (mk : Byte → Instr) : Prop :=
  ∀ op b rest, opcodeMap op = some h → decode (op :: b :: rest) = .ok (mk b, rest)

/-- Format A (R85, R89): a 24-bit field in bytes 1 to 3, little-endian, width 4. -/
def DecodesA (h : Opcode) (mk : Word → Instr) : Prop :=
  ∀ op (v : Word) rest, opcodeMap op = some h →
    decode (op :: v.extractLsb' 0 8 :: v.extractLsb' 8 8 :: v.extractLsb' 16 8 :: rest) = .ok (mk v, rest)

/-- Format OA (R84, R85, R89): r = op[2:0], a 24-bit field in bytes 1 to 3, width 4. -/
def DecodesOA (h : Opcode) (mk : Reg → Word → Instr) : Prop :=
  ∀ op (v : Word) rest, opcodeMap op = some h →
    decode (op :: v.extractLsb' 0 8 :: v.extractLsb' 8 8 :: v.extractLsb' 16 8 :: rest) =
      .ok (mk (Config.regOfIndex (op.extractLsb' 0 3)) v, rest)

/-- The bits of an operand byte that the instruction depends on (R83, R87, R93). -/
def significantBits (f : Format) (b : Byte) : Byte :=
  match f with
  | .r => b &&& 0x07
  | .c => b &&& 0x3F
  | .n | .i8 | .a | .oa | .e => b

/-- `t` is `s` halted with a status and a reason, everything else as before (R12, R41, R110). -/
structure HaltsOnly (s t : State) (status : Word) (reason : HaltReason) : Prop where
  runState : t.run = .halted status reason
  pcKept : t.pc = s.pc
  registers : ∀ r, t.reg r = s.reg r
  flagsKept : t.flags = s.flags
  memory : ∀ a, t.mem.read a = s.mem.read a
  traceKept : t.trace = s.trace
  drawsKept : t.draws = s.draws

/-- `t` is `s` with registers, memory and the run state unchanged outside `regs` and `bytes`, one event more in the trace
and `draws` more draws (R43, R240). -/
structure ServiceOnly (s t : State) (regs : List Reg) (bytes : List Nat) (event : HostEvent) (draws : Nat) : Prop where
  pcAdvances : t.pc = s.pc + 2
  registers : ∀ r, r ∉ regs → t.reg r = s.reg r
  flagsKept : t.flags = s.flags
  memory : ∀ a, a ∉ bytes → t.mem.read a = s.mem.read a
  runState : t.run = s.run
  traceGrows : t.trace = s.trace ++ [event]
  drawsGrow : t.draws = s.draws + draws

/-- What the auto-increment load of `n` bytes does (R160 to R162; the faults and their order are decisions D18 and D25, log
entry 6): the destination y gets the value at the address in x,
then x, read after that, advances by `n`; it raises `AddrWrap` when the access runs past the top, and `PcWrap` when pc
cannot advance. -/
def AutoIncrements (mk : Reg → Reg → Instr) (n : Nat) : Prop :=
  ∀ (x y : Reg) (s : State),
    ((s.reg x).toNat + n ≤ 0x1000000 → s.pc.toNat + 2 ≤ 0xFFFFFF →
      ∃ t, exec (mk x y) s = .next t ∧
        (x ≠ y → t.reg y = BitVec.ofNat 24 (bytesAt s.mem (s.reg x).toNat n) ∧
          t.reg x = s.reg x + BitVec.ofNat 24 n) ∧
        (x = y → t.reg x = BitVec.ofNat 24 (bytesAt s.mem (s.reg x).toNat n) + BitVec.ofNat 24 n) ∧
        t.pc = s.pc + 2 ∧ OnlyChanges s t [x, y] [] []) ∧
    (0x1000000 < (s.reg x).toNat + n → exec (mk x y) s = .fault (.addrWrap (s.reg x) n)) ∧
    ((s.reg x).toNat + n ≤ 0x1000000 → 0xFFFFFF < s.pc.toNat + 2 → exec (mk x y) s = .fault (.pcWrap s.pc))

/-- What a conditional jump does that is taken when flag `f` is set and then clears it (R181, R183, R186, R187, R189; that
an untaken one at the top raises `PcWrap` is decision D18, log entry 6). -/
def JumpsClearing (mk : Word → Instr) (f : Flag) : Prop :=
  ∀ (target : Word) (s : State),
    (s.flag f = true →
      ∃ t, exec (mk target) s = .next t ∧ t.pc = target ∧ t.flag f = false ∧ OnlyChanges s t [] [f] []) ∧
    (s.flag f = false → s.pc.toNat + 4 ≤ 0xFFFFFF →
      ∃ t, exec (mk target) s = .next t ∧ t.pc = s.pc + 4 ∧ OnlyChanges s t [] [] []) ∧
    (s.flag f = false → 0xFFFFFF < s.pc.toNat + 4 → exec (mk target) s = .fault (.pcWrap s.pc))

/-- What a conditional jump does that is taken when flag `f` is clear and changes no flag (R182, R184, R185, R188, R189;
that an untaken one at the top raises `PcWrap` is decision D18, log entry 6). -/
def JumpsOnClear (mk : Word → Instr) (f : Flag) : Prop :=
  ∀ (target : Word) (s : State),
    (s.flag f = false → ∃ t, exec (mk target) s = .next t ∧ t.pc = target ∧ OnlyChanges s t [] [] []) ∧
    (s.flag f = true → s.pc.toNat + 4 ≤ 0xFFFFFF →
      ∃ t, exec (mk target) s = .next t ∧ t.pc = s.pc + 4 ∧ OnlyChanges s t [] [] []) ∧
    (s.flag f = true → 0xFFFFFF < s.pc.toNat + 4 → exec (mk target) s = .fault (.pcWrap s.pc))

end Sys2Proof.Claims

open Sys2Proof Sys2Proof.Machine Sys2Proof.Claims

/-! 30_encoding.md -/

/-- The default opcode map: one word for each of its rows, written out bit by bit from the format table, decodes to the
instruction it stands for, and the opcode bytes that no row covers, and they alone, are illegal (30_encoding.md, R92;
decisions D1, D2, D4, D5). -/
def Obligations.SpecWordsDecode : Prop :=
  (decode [0b00000001] = .ok (.hlt, []) ∧
    decode [0b00000010] = .ok (.trap, []) ∧
    decode [0b00000011, 0b11110110] = .ok (.incR .sp, []) ∧
    decode [0b00000100, 0b00000001] = .ok (.decR .bx, []) ∧
    decode [0b00000101, 0x00, 0x00, 0x04] = .ok (.incByteA 0x040000, []) ∧
    decode [0b00000110, 0x01, 0x00, 0x04] = .ok (.decByteA 0x040001, []) ∧
    decode [0b00000111, 0xFE, 0xFF, 0xFF] = .ok (.incWordA 0xFFFFFE, []) ∧
    decode [0b00001000, 0x56, 0x34, 0x12] = .ok (.decWordA 0x123456, []) ∧
    decode [0b00001001, 0b10000010] = .ok (.intCode 0x82, []) ∧
    decode [0b00001010, 0b11000001] = .ok (.addRxRy .ax .bx, []) ∧
    decode [0b00001011, 0b00110000] = .ok (.movRxRy .sp .ax, []) ∧
    decode [0b00001100, 0b00100001] = .ok (.lodbRxRy .si .bx, []) ∧
    decode [0b00001101, 0b00101010] = .ok (.lodwRxRy .gi .cx, []) ∧
    decode [0b00001110, 0b00111011] = .ok (.lodhRxRy .bp .dx, []) ∧
    decode [0b00001111, 0b00010000] = .ok (.escapeE 0x10, [])) ∧
  (decode [0b00010000, 0x00, 0x01, 0x03] = .ok (.jmpT 0x030100, []) ∧
    decode [0b00010001, 0x00, 0x01, 0x03] = .ok (.jeT 0x030100, []) ∧
    decode [0b00010010, 0x00, 0x01, 0x03] = .ok (.jneT 0x030100, []) ∧
    decode [0b00010011, 0x00, 0x01, 0x03] = .ok (.jcT 0x030100, []) ∧
    decode [0b00010100, 0x00, 0x01, 0x03] = .ok (.jncT 0x030100, []) ∧
    decode [0b00010101, 0x00, 0x01, 0x03] = .ok (.jsT 0x030100, []) ∧
    decode [0b00010110, 0x00, 0x01, 0x03] = .ok (.jnT 0x030100, []) ∧
    decode [0b00010111, 0x00, 0x01, 0x03] = .ok (.jiT 0x030100, []) ∧
    decode [0b00011000, 0x00, 0x01, 0x03] = .ok (.jniT 0x030100, []) ∧
    decode [0b00011001, 0x56, 0x34, 0x12] = .ok (.pushImm 0x123456, []) ∧
    decode [0b00011010, 0b00000110] = .ok (.pushR .sp, [])) ∧
  (decode [0b00100111, 0xFF, 0xFF, 0xFF] = .ok (.movRImm .bp 0xFFFFFF, []) ∧
    decode [0b00101000, 0x56, 0x34, 0x12] = .ok (.movRByteA .ax 0x123456, []) ∧
    decode [0b00110001, 0x56, 0x34, 0x12] = .ok (.movRWordA .bx 0x123456, []) ∧
    decode [0b00111010, 0x56, 0x34, 0x12] = .ok (.movByteAR 0x123456 .cx, []) ∧
    decode [0b01000011, 0x56, 0x34, 0x12] = .ok (.movWordAR 0x123456 .dx, []) ∧
    decode [0b01001100, 0x56, 0x34, 0x12] = .ok (.addRImm .si 0x123456, []) ∧
    decode [0b01010101, 0x56, 0x34, 0x12] = .ok (.addRByteA .gi 0x123456, []) ∧
    decode [0b01011110, 0x56, 0x34, 0x12] = .ok (.addRWordA .sp 0x123456, []) ∧
    decode [0b01100110, 0xFF, 0xFF, 0xFE] = .ok (.cmpRImm .sp 0xFEFFFF, [])) ∧
  (∀ op : Byte, opcodeMap op = none ↔ op = 0x00 ∨ (0x1B ≤ op ∧ op ≤ 0x1F) ∨ 0x68 ≤ op)

/-- Under every configuration the spec admits, the default one among them, decoding an encoded well-formed instruction gives
it back, whatever bytes follow (R8 of 00_scope.md, 30_encoding.md; the default map is decision D1, what a configuration
must keep is log entry 20). -/
def Obligations.DecodeOfEncode : Prop :=
  (∀ (cfg : Configuration) (i : Instr) (rest : List Byte), cfg.Valid → i.wellFormed cfg = true →
    decode (encode i cfg ++ rest) cfg = .ok (i, rest)) ∧
  (∀ (i : Instr) (rest : List Byte), i.wellFormed = true → decode (encode i ++ rest) = .ok (i, rest))

/-- Encoding a decoded instruction gives back the bytes it was decoded from, but for the ignored operand bits (R83, R87,
D5), which it writes as zeros (log entry 18). -/
def Obligations.EncodeOfDecode : Prop :=
  ∀ (op : Byte) (tail rest : List Byte) (i : Instr), decode (op :: tail) = .ok (i, rest) →
    ∃ operands, tail = operands ++ rest ∧
      encode i = op :: operands.map (significantBits i.opcode.format)

/-- Every instruction is 1, 2 or 4 bytes long, the escape 2, and the opcode byte alone fixes how many bytes the decoder
takes (R80). -/
def Obligations.OpcodeFixesLength : Prop :=
  (∀ (op : Byte) (tail rest : List Byte) (i : Instr), decode (op :: tail) = .ok (i, rest) →
    (i.width = 1 ∨ i.width = 2 ∨ i.width = 4) ∧ tail.length + 1 = i.width + rest.length) ∧
  (∀ (op : Byte) (tail tail' rest rest' : List Byte) (i j : Instr), decode (op :: tail) = .ok (i, rest) →
    decode (op :: tail') = .ok (j, rest') → i.width = j.width) ∧
  (∀ e : Byte, (Instr.escapeE e).width = 2)

/-! 40_system.md -/

/-- A running core whose bytes at pc decode to an instruction executes exactly that instruction, and the bytes are the
memory's as it stands at the start of the step (R110, R69; decision D17). The same holds under every configuration, and the
core and its dispatch table are the default one's (R8 of 00_scope.md). -/
def Obligations.StepRunsTheDecodedInstruction : Prop :=
  (∀ (s : State) (i : Instr) (rest : List Byte), s.run = .running →
    decode (fetchBytes s.mem s.pc) = .ok (i, rest) → step s = exec i s) ∧
  (∀ (m : Memory) (pc : Word) (k : Nat), (fetchBytes m pc)[k]? =
    if k < 4 ∧ pc.toNat + k < 0x1000000 then some (m.read (pc.toNat + k)) else none) ∧
  (∀ (cfg : Configuration) (s : State) (i : Instr) (rest : List Byte), s.run = .running →
    decode (fetchBytes s.mem s.pc) cfg = .ok (i, rest) → stepIn cfg s = execIn cfg i s) ∧
  (∀ s : State, stepIn Config.defaults s = step s) ∧
  (∀ (i : Instr) (s : State), execIn Config.defaults i s = exec i s)

/-- A step from a halted core changes nothing and reports the same halt and status; reset makes it run again, a host write
to memory does not (R111). -/
def Obligations.HaltedStepChangesNothing : Prop :=
  ∀ (s : State) (status : Word) (reason : HaltReason), s.run = .halted status reason →
    step s = .next s ∧ hostStep s = .next (s, ⟨true, status⟩) ∧ (hostReset s).run = .running ∧
      ∀ (n : Width) (a v : Word) (t : State), hostWrite n a v s = .ok t → t.run = s.run

/-- A running core whose opcode byte the map sends to Illegal halts with status 1, naming the byte and the pc, and
changes nothing else, even where no operand byte could be fetched (R115). -/
def Obligations.IllegalPrimaryOpcodeHalts : Prop :=
  ∀ (s : State), s.run = .running → opcodeMap (s.mem.read s.pc.toNat) = none →
    ∃ t, step s = .next t ∧ HaltsOnly s t 1 (.illegalInstruction [s.mem.read s.pc.toNat] s.pc)

/-- The page escape halts with status 1, naming 0x0F and the extension opcode (40_system.md; the default extension map
and the report are decision D16). -/
def Obligations.EscapeHalts : Prop :=
  DecodesB .escapeE .escapeE ∧
  ∀ (e : Byte) (s : State), ∃ t, exec (.escapeE e) s = .next t ∧
    HaltsOnly s t 1 (.illegalInstruction [0x0F, e] s.pc)

/-- `hlt` halts with status 0, and nothing else changes, wherever it stands (R112). -/
def Obligations.HltHalts : Prop :=
  DecodesN .hlt .hlt ∧
  ∀ s : State, ∃ t, exec .hlt s = .next t ∧ HaltsOnly s t 0 .hlt

/-- `trap` always raises the model fault `Unmodelled(trap, pc)` (40_system.md, decision D15; log entry 7). -/
def Obligations.TrapFaults : Prop :=
  DecodesN .trap .trap ∧ ∀ s : State, exec .trap s = .fault (.unmodelledTrap s.pc)

/-- An instruction whose bytes run past the top of memory raises `AddrWrap(pc, width)` (decision D18; log entry 6). -/
def Obligations.FetchPastTopFaults : Prop :=
  ∀ (s : State) (h : Opcode), s.run = .running → opcodeMap (s.mem.read s.pc.toNat) = some h →
    0x1000000 < s.pc.toNat + h.format.width → step s = .fault (.addrWrap s.pc h.format.width)

/-- Where the sequential advance would pass 0xFFFFFF, only the halting instructions, the jumps and `int` can complete, the
register-only instructions raise `PcWrap`, and so do a gated-off `int` and every host service whose own work succeeds, but
for exit and reset, which do not advance. A console-read the host does not answer stays blocked (10_state.md, 42_int.md,
60_exceptions.md; decisions D18 and D25, log entries 6 and 10). -/
def Obligations.SequentialWrapFaults : Prop :=
  (∀ (i : Instr) (s t : State), 0xFFFFFF < s.pc.toNat + i.width → exec i s = .next t →
    i.opcode = .hlt ∨ i.opcode = .escapeE ∨ i.opcode = .intCode ∨
      i.opcode ∈ [Opcode.jmpT, .jeT, .jneT, .jcT, .jncT, .jsT, .jnT, .jiT, .jniT]) ∧
  (∀ (i : Instr) (s : State), 0xFFFFFF < s.pc.toNat + i.width →
    i.opcode ∈ [Opcode.incR, .decR, .addRxRy, .movRxRy, .movRImm, .addRImm, .cmpRImm] →
      exec i s = .fault (.pcWrap s.pc)) ∧
  (∀ (code : Byte) (s : State), 0xFFFFFF < s.pc.toNat + 2 →
    (s.flag .i = false → exec (.intCode code) s = .fault (.pcWrap s.pc)) ∧
    (∀ svc ∈ [HostService.videoFlush, .random, .clock, .delay], Runs code svc s →
      exec (.intCode code) s = .fault (.pcWrap s.pc)) ∧
    (Runs code .consoleWrite s → (s.reg .sp).toNat ≤ 0xFFFFFC → exec (.intCode code) s = .fault (.pcWrap s.pc)) ∧
    (Runs code .consoleRead s → 3 ≤ (s.reg .sp).toNat →
      exec (.intCode code) s = match Config.consoleIn s.draws with
        | none => .next s
        | some _ => .fault (.pcWrap s.pc)))

/-- A running core that halts leaves pc at the halting instruction, and an instruction that is neither a jump nor `int`
and goes on moves pc past its own width (10_state.md, decision D17; log entry 8). -/
def Obligations.PcAfterAnInstruction : Prop :=
  ∀ (i : Instr) (s t : State), s.run = .running → exec i s = .next t →
    (t.run ≠ .running → t.pc = s.pc) ∧
    (t.run = .running → i.opcode = .intCode ∨
      i.opcode ∈ [Opcode.jmpT, .jeT, .jneT, .jcT, .jncT, .jsT, .jnT, .jiT, .jniT] ∨
      t.pc.toNat = s.pc.toNat + i.width)

/-! 20_memory.md -/

/-- A byte read or write at any 24-bit address succeeds, and the write is read back (R52). -/
def Obligations.ByteAccessAlwaysSucceeds : Prop :=
  ∀ (m : Memory) (a v : Word), memRead m a .byte = .ok ((m.read a.toNat).setWidth 24) ∧
    ∃ m', memWrite m a .byte v = .ok m' ∧ memRead m' a .byte = .ok (v &&& 0x0000FF)

/-- A multi-byte read inside the memory is the little-endian sum of its bytes (R53). -/
def Obligations.ReadsAreLittleEndian : Prop :=
  ∀ (m : Memory) (a : Word) (n : Width), a.toNat + n.bytes ≤ 0x1000000 →
    ∃ v, memRead m a n = .ok v ∧
      v.toNat = match n with
        | .byte => (m.read a.toNat).toNat
        | .word => (m.read a.toNat).toNat + 256 * (m.read (a.toNat + 1)).toNat
        | .triple => (m.read a.toNat).toNat + 256 * (m.read (a.toNat + 1)).toNat + 65536 * (m.read (a.toNat + 2)).toNat

/-- A write inside the memory stores byte k of the value, its bits 8k+7:8k, at a+k, stores nothing else, and reads back
as the value modulo 2^8n (R54). -/
def Obligations.WritesStoreTheLowBytes : Prop :=
  ∀ (m : Memory) (a v : Word) (n : Width), a.toNat + n.bytes ≤ 0x1000000 →
    ∃ m', memWrite m a n v = .ok m' ∧
      (∀ k < n.bytes, m'.read (a.toNat + k) = v.extractLsb' (8 * k) 8) ∧
      (∀ b, (b < a.toNat ∨ a.toNat + n.bytes ≤ b) → m'.read b = m.read b) ∧
      memRead m' a n = .ok (BitVec.ofNat 24 (v.toNat % 2 ^ (8 * n.bytes)))

/-- An access past the top of memory raises `AddrWrap` and accesses nothing (decision D18; log entry 6). -/
def Obligations.AccessPastTopFaults : Prop :=
  ∀ (m : Memory) (a v : Word) (n : Width), 0x1000000 < a.toNat + n.bytes →
    memRead m a n = .error (.addrWrap a n.bytes) ∧ memWrite m a n v = .error (.addrWrap a n.bytes)

/-- Memories in canonical form that read alike at every address are equal data (log entry 13). -/
def Obligations.CanonicalMemoriesAreEqual : Prop :=
  ∀ m m' : Memory, m.wf = true → m'.wf = true → (∀ a, m.read a = m'.read a) → m = m'

/-- A push stores the slot's bytes downward from the old SP, least significant first, and moves SP down by 3; the pop
after it gives the value back with SP as before (20_memory.md; slot layout and order are decisions D19 and D20, log entry
3). -/
def Obligations.PushThenPop : Prop :=
  ∀ (v : Word) (s : State), 3 ≤ (s.reg .sp).toNat →
    ∃ t u, stackPush v s = .ok t ∧ stackPop t = .ok (v, u) ∧
      t.reg .sp = s.reg .sp - 3 ∧ u.reg .sp = s.reg .sp ∧
      t.mem.read (s.reg .sp).toNat = v.extractLsb' 0 8 ∧
      t.mem.read ((s.reg .sp).toNat - 1) = v.extractLsb' 8 8 ∧
      t.mem.read ((s.reg .sp).toNat - 2) = v.extractLsb' 16 8 ∧
      t.pc = s.pc ∧
      OnlyChanges s t [.sp] [] [(s.reg .sp).toNat, (s.reg .sp).toNat - 1, (s.reg .sp).toNat - 2]

/-- A pop moves SP up by 3 and reads the slot at the new SP, changing no memory byte (20_memory.md; layout decision
D19). -/
def Obligations.PopReadsTheSlot : Prop :=
  ∀ s : State, (s.reg .sp).toNat ≤ 0xFFFFFC →
    ∃ v t, stackPop s = .ok (v, t) ∧ t.reg .sp = s.reg .sp + 3 ∧
      v.toNat = (s.mem.read ((s.reg .sp).toNat + 3)).toNat + 256 * (s.mem.read ((s.reg .sp).toNat + 2)).toNat +
        65536 * (s.mem.read ((s.reg .sp).toNat + 1)).toNat ∧
      t.pc = s.pc ∧ OnlyChanges s t [.sp] [] []

/-- Stack wrap: a push with SP below 3 and a pop with SP above 0xFFFFFC raise `StackWrap(SP)`, in `push` and in the exit,
console-write and console-read services; console-read draws the host's byte first, so one the host does not answer stays
blocked (decisions D18 and D14; log entries 6, 9 and 10). -/
def Obligations.StackWrapFaults : Prop :=
  (∀ (s : State) (v : Word) (r : Reg), (s.reg .sp).toNat < 3 →
    exec (.pushImm v) s = .fault (.stackWrap (s.reg .sp)) ∧ exec (.pushR r) s = .fault (.stackWrap (s.reg .sp))) ∧
  (∀ (s : State) (code : Byte), 0xFFFFFC < (s.reg .sp).toNat →
    (Runs code .exit s ∨ Runs code .consoleWrite s) → exec (.intCode code) s = .fault (.stackWrap (s.reg .sp))) ∧
  (∀ (s : State) (code : Byte), (s.reg .sp).toNat < 3 → Runs code .consoleRead s →
    exec (.intCode code) s = match Config.consoleIn s.draws with
      | none => .next s
      | some _ => .fault (.stackWrap (s.reg .sp)))

/-- The next fetch sees a byte that a store put at its address, with nothing in between (R69, R270): a `mov byte [a], r`
to the address of the next instruction gives that instruction's opcode byte. -/
def Obligations.NextFetchSeesTheStore : Prop :=
  ∀ (s : State) (a : Word) (r : Reg) (t : State), a = s.pc + 4 → exec (.movByteAR a r) s = .next t →
    (fetchBytes t.mem t.pc).head? = some ((s.reg r).extractLsb' 0 8)

/-- Only the instructions that the width table says write memory change a byte of it (20_memory.md section 5): increment
and decrement of memory, the moves to memory, the pushes, and the console-read service. -/
def Obligations.OnlyStoresChangeMemory : Prop :=
  ∀ (i : Instr) (s t : State) (a : Nat), exec i s = .next t → t.mem.read a ≠ s.mem.read a →
    i.opcode ∈ [Opcode.incByteA, .decByteA, .incWordA, .decWordA, .movByteAR, .movWordAR, .pushImm, .pushR] ∨
      ∃ code, i = .intCode code ∧ Runs code .consoleRead s

/-! 41_incdec.md -/

/-- `inc r` and `dec r` add and subtract 1 modulo 2^24 and change nothing else but pc; where pc cannot advance they raise
`PcWrap` (41_incdec.md; the fault is decision D18, log entry 6). -/
def Obligations.IncDecRegister : Prop :=
  DecodesR .incR .incR ∧ DecodesR .decR .decR ∧
  ∀ (r : Reg) (s : State),
    (s.pc.toNat + 2 ≤ 0xFFFFFF →
      (∃ t, exec (.incR r) s = .next t ∧ t.reg r = s.reg r + 1 ∧ t.pc = s.pc + 2 ∧ OnlyChanges s t [r] [] []) ∧
      (∃ t, exec (.decR r) s = .next t ∧ t.reg r = s.reg r - 1 ∧ t.pc = s.pc + 2 ∧ OnlyChanges s t [r] [] [])) ∧
    (0xFFFFFF < s.pc.toNat + 2 →
      exec (.incR r) s = .fault (.pcWrap s.pc) ∧ exec (.decR r) s = .fault (.pcWrap s.pc))

/-- `inc byte [a]` and `dec byte [a]` change the byte at `a` modulo 2^8 and nothing else but pc (41_incdec.md, decision
D22). -/
def Obligations.IncDecMemoryByte : Prop :=
  DecodesA .incByteA .incByteA ∧ DecodesA .decByteA .decByteA ∧
  ∀ (a : Word) (s : State), s.pc.toNat + 4 ≤ 0xFFFFFF →
    (∃ t, exec (.incByteA a) s = .next t ∧ t.mem.read a.toNat = s.mem.read a.toNat + 1 ∧ t.pc = s.pc + 4 ∧
      OnlyChanges s t [] [] [a.toNat]) ∧
    (∃ t, exec (.decByteA a) s = .next t ∧ t.mem.read a.toNat = s.mem.read a.toNat - 1 ∧ t.pc = s.pc + 4 ∧
      OnlyChanges s t [] [] [a.toNat])

/-- `inc word [a]` and `dec word [a]` change the 16-bit word at `a` modulo 2^16 and nothing else but pc, and raise
`AddrWrap` when `a` is the last address (41_incdec.md, decisions D18 and D22). -/
def Obligations.IncDecMemoryWord : Prop :=
  DecodesA .incWordA .incWordA ∧ DecodesA .decWordA .decWordA ∧
  ∀ (a : Word) (s : State),
    (a.toNat + 2 ≤ 0x1000000 → s.pc.toNat + 4 ≤ 0xFFFFFF →
      (∃ t, exec (.incWordA a) s = .next t ∧ bytesAt t.mem a.toNat 2 = (bytesAt s.mem a.toNat 2 + 1) % 65536 ∧
        t.pc = s.pc + 4 ∧ OnlyChanges s t [] [] [a.toNat, a.toNat + 1]) ∧
      (∃ t, exec (.decWordA a) s = .next t ∧ bytesAt t.mem a.toNat 2 = (bytesAt s.mem a.toNat 2 + 65535) % 65536 ∧
        t.pc = s.pc + 4 ∧ OnlyChanges s t [] [] [a.toNat, a.toNat + 1])) ∧
    (a = 0xFFFFFF → exec (.incWordA a) s = .fault (.addrWrap a 2) ∧ exec (.decWordA a) s = .fault (.addrWrap a 2))

/-! 43_arith.md -/

/-- `add rx, ry` adds y into x modulo 2^24, also when x is y, and writes no flag (43_arith.md; the destination x is
decision D6, log entry 2). -/
def Obligations.AddRegister : Prop :=
  DecodesC .addRxRy .addRxRy ∧
  ∀ (x y : Reg) (s : State), s.pc.toNat + 2 ≤ 0xFFFFFF →
    ∃ t, exec (.addRxRy x y) s = .next t ∧ t.reg x = s.reg x + s.reg y ∧ t.pc = s.pc + 2 ∧ OnlyChanges s t [x] [] []

/-- `add r, imm` adds the immediate modulo 2^24 and writes no flag (43_arith.md; the operand form is decision D4). -/
def Obligations.AddImmediate : Prop :=
  DecodesOA .addRImm .addRImm ∧
  ∀ (r : Reg) (imm : Word) (s : State), s.pc.toNat + 4 ≤ 0xFFFFFF →
    ∃ t, exec (.addRImm r imm) s = .next t ∧ (t.reg r).toNat = ((s.reg r).toNat + imm.toNat) % 2 ^ 24 ∧
      t.pc = s.pc + 4 ∧ OnlyChanges s t [r] [] []

/-- `add r, byte [a]` and `add r, word [a]` add the zero-extended memory operand modulo 2^24 and write no flag
(43_arith.md, decisions D7 and D18). -/
def Obligations.AddMemory : Prop :=
  DecodesOA .addRByteA .addRByteA ∧ DecodesOA .addRWordA .addRWordA ∧
  ∀ (r : Reg) (a : Word) (s : State),
    (s.pc.toNat + 4 ≤ 0xFFFFFF →
      ∃ t, exec (.addRByteA r a) s = .next t ∧ t.reg r = s.reg r + BitVec.ofNat 24 (bytesAt s.mem a.toNat 1) ∧
        t.pc = s.pc + 4 ∧ OnlyChanges s t [r] [] []) ∧
    (a.toNat + 2 ≤ 0x1000000 → s.pc.toNat + 4 ≤ 0xFFFFFF →
      ∃ t, exec (.addRWordA r a) s = .next t ∧ t.reg r = s.reg r + BitVec.ofNat 24 (bytesAt s.mem a.toNat 2) ∧
        t.pc = s.pc + 4 ∧ OnlyChanges s t [r] [] []) ∧
    (a = 0xFFFFFF → exec (.addRWordA r a) s = .fault (.addrWrap a 2))

/-- `cmp r, imm` sets Z to whether they are equal and N to bit 23 of the 24-bit difference, both to 1 or 0, and writes no
register and neither C nor I (43_arith.md; the sign reading Wrap24 is decision D21, log entry 4). -/
def Obligations.CompareImmediate : Prop :=
  DecodesOA .cmpRImm .cmpRImm ∧
  ∀ (r : Reg) (imm : Word) (s : State), s.pc.toNat + 4 ≤ 0xFFFFFF →
    ∃ t, exec (.cmpRImm r imm) s = .next t ∧ (t.flag .z = true ↔ s.reg r = imm) ∧
      (t.flag .n = true ↔ 2 ^ 23 ≤ (s.reg r - imm).toNat) ∧ t.pc = s.pc + 4 ∧ OnlyChanges s t [] [.z, .n] []

/-! 44_load_move.md -/

/-- `lodb`, `lodw` and `lodh` load 1, 2 and 3 bytes, little-endian, through x into y, then advance x by as many, read after
the write of y; nothing else changes but pc, and an access past the top or a pc that cannot advance faults
(44_load_move.md; the faults and their order are decisions D18 and D25, log entry 6). -/
def Obligations.AutoIncrementLoads : Prop :=
  DecodesC .lodbRxRy .lodbRxRy ∧ DecodesC .lodwRxRy .lodwRxRy ∧ DecodesC .lodhRxRy .lodhRxRy ∧
  AutoIncrements .lodbRxRy 1 ∧ AutoIncrements .lodwRxRy 2 ∧ AutoIncrements .lodhRxRy 3

/-- `mov rx, ry` copies y to x (44_load_move.md; the direction is decision D6, log entry 2). -/
def Obligations.MoveRegister : Prop :=
  DecodesC .movRxRy .movRxRy ∧
  ∀ (x y : Reg) (s : State), s.pc.toNat + 2 ≤ 0xFFFFFF →
    ∃ t, exec (.movRxRy x y) s = .next t ∧ t.reg x = s.reg y ∧ t.pc = s.pc + 2 ∧ OnlyChanges s t [x] [] []

/-- `mov r, imm` loads the 24-bit immediate (44_load_move.md; the operand form is decision D4). -/
def Obligations.MoveImmediate : Prop :=
  DecodesOA .movRImm .movRImm ∧
  ∀ (r : Reg) (imm : Word) (s : State), s.pc.toNat + 4 ≤ 0xFFFFFF →
    ∃ t, exec (.movRImm r imm) s = .next t ∧ t.reg r = imm ∧ t.pc = s.pc + 4 ∧ OnlyChanges s t [r] [] []

/-- `mov r, byte [a]` and `mov r, word [a]` load the zero-extended operand (44_load_move.md, decisions D8 and D18). -/
def Obligations.LoadAbsolute : Prop :=
  DecodesOA .movRByteA .movRByteA ∧ DecodesOA .movRWordA .movRWordA ∧
  ∀ (r : Reg) (a : Word) (s : State),
    (s.pc.toNat + 4 ≤ 0xFFFFFF →
      ∃ t, exec (.movRByteA r a) s = .next t ∧ (t.reg r).toNat = bytesAt s.mem a.toNat 1 ∧ t.pc = s.pc + 4 ∧
        OnlyChanges s t [r] [] []) ∧
    (a.toNat + 2 ≤ 0x1000000 → s.pc.toNat + 4 ≤ 0xFFFFFF →
      ∃ t, exec (.movRWordA r a) s = .next t ∧ (t.reg r).toNat = bytesAt s.mem a.toNat 2 ∧ t.pc = s.pc + 4 ∧
        OnlyChanges s t [r] [] []) ∧
    (a = 0xFFFFFF → exec (.movRWordA r a) s = .fault (.addrWrap a 2))

/-- `mov byte [a], r` and `mov word [a], r` store the low byte or the low two bytes, little-endian, and change nothing
else but pc (44_load_move.md, decisions D8 and D18). -/
def Obligations.StoreAbsolute : Prop :=
  DecodesOA .movByteAR (fun r a => .movByteAR a r) ∧ DecodesOA .movWordAR (fun r a => .movWordAR a r) ∧
  ∀ (r : Reg) (a : Word) (s : State),
    (s.pc.toNat + 4 ≤ 0xFFFFFF →
      ∃ t, exec (.movByteAR a r) s = .next t ∧ t.mem.read a.toNat = (s.reg r).extractLsb' 0 8 ∧ t.pc = s.pc + 4 ∧
        OnlyChanges s t [] [] [a.toNat]) ∧
    (a.toNat + 2 ≤ 0x1000000 → s.pc.toNat + 4 ≤ 0xFFFFFF →
      ∃ t, exec (.movWordAR a r) s = .next t ∧ t.mem.read a.toNat = (s.reg r).extractLsb' 0 8 ∧
        t.mem.read (a.toNat + 1) = (s.reg r).extractLsb' 8 8 ∧ t.pc = s.pc + 4 ∧
        OnlyChanges s t [] [] [a.toNat, a.toNat + 1]) ∧
    (a = 0xFFFFFF → exec (.movWordAR a r) s = .fault (.addrWrap a 2))

/-! 45_jumps.md -/

/-- `jmp` sets pc to its target from anywhere and changes nothing else (45_jumps.md; the mnemonic is decision D9). -/
def Obligations.UnconditionalJump : Prop :=
  DecodesA .jmpT .jmpT ∧
  ∀ (target : Word) (s : State), ∃ t, exec (.jmpT target) s = .next t ∧ t.pc = target ∧ OnlyChanges s t [] [] []

/-- `je`, `jc`, `jn` and `ji` are taken when their flag is set, and a taken one clears it; an untaken one advances pc or,
where pc cannot advance, raises `PcWrap` (45_jumps.md; the fault is decision D18, log entry 6). -/
def Obligations.JumpsThatClearTheirFlag : Prop :=
  DecodesA .jeT .jeT ∧ DecodesA .jcT .jcT ∧ DecodesA .jnT .jnT ∧ DecodesA .jiT .jiT ∧
  JumpsClearing .jeT .z ∧ JumpsClearing .jcT .c ∧ JumpsClearing .jnT .n ∧ JumpsClearing .jiT .i

/-- `jne`, `jnc`, `js` and `jni` are taken when their flag is clear and write no flag; `js` tests that Negative is CLEAR;
an untaken one advances pc or, where pc cannot advance, raises `PcWrap` (45_jumps.md; the fault is decision D18, log
entry 6). -/
def Obligations.JumpsOnAClearFlag : Prop :=
  DecodesA .jneT .jneT ∧ DecodesA .jncT .jncT ∧ DecodesA .jsT .jsT ∧ DecodesA .jniT .jniT ∧
  JumpsOnClear .jneT .z ∧ JumpsOnClear .jncT .c ∧ JumpsOnClear .jsT .n ∧ JumpsOnClear .jniT .i

/-! 46_stack.md -/

/-- `push imm` and `push r` store the value in the slot below SP and move SP down by 3; `push SP` stores the old SP
(46_stack.md; slot layout and order are decisions D19 and D20, log entry 3). -/
def Obligations.PushInstructions : Prop :=
  DecodesA .pushImm .pushImm ∧ DecodesR .pushR .pushR ∧
  ∀ (s : State), 3 ≤ (s.reg .sp).toNat →
    (∀ imm : Word, s.pc.toNat + 4 ≤ 0xFFFFFF →
      ∃ t, exec (.pushImm imm) s = .next t ∧ t.reg .sp = s.reg .sp - 3 ∧ t.pc = s.pc + 4 ∧
        (∀ k < 3, t.mem.read ((s.reg .sp).toNat - k) = imm.extractLsb' (8 * k) 8) ∧
        OnlyChanges s t [.sp] [] [(s.reg .sp).toNat, (s.reg .sp).toNat - 1, (s.reg .sp).toNat - 2]) ∧
    (∀ r : Reg, s.pc.toNat + 2 ≤ 0xFFFFFF →
      ∃ t, exec (.pushR r) s = .next t ∧ t.reg .sp = s.reg .sp - 3 ∧ t.pc = s.pc + 2 ∧
        (∀ k < 3, t.mem.read ((s.reg .sp).toNat - k) = (s.reg r).extractLsb' (8 * k) 8) ∧
        OnlyChanges s t [.sp] [] [(s.reg .sp).toNat, (s.reg .sp).toNat - 1, (s.reg .sp).toNat - 2])

/-! 42_int.md and 60_exceptions.md -/

/-- With I clear, `int` of any code only advances pc by 2; no instruction sets I, and only a taken `ji` clears it
(R216). -/
def Obligations.IntWithInterruptsOffOnlyAdvances : Prop :=
  DecodesB .intCode .intCode ∧
  (∀ (code : Byte) (s : State), s.flag .i = false → s.pc.toNat + 2 ≤ 0xFFFFFF →
    ∃ t, exec (.intCode code) s = .next t ∧ t.pc = s.pc + 2 ∧ OnlyChanges s t [] [] []) ∧
  (∀ (i : Instr) (s t : State), exec i s = .next t → t.flag .i ≠ s.flag .i →
    i.opcode = .jiT ∧ s.flag .i = true ∧ t.flag .i = false)

/-- With I set, `int (0x80+n)` sets pc to the 24-bit little-endian value at 0xFF0000 + 3n and changes nothing else: no
return address is pushed and pc does not advance. After `create` every entry is 0 (R218). -/
def Obligations.VectoredIntJumpsThroughTheTable : Prop :=
  ∀ (n : Nat), n < 128 →
    (∀ s : State, s.flag .i = true →
      ∃ t, exec (.intCode (BitVec.ofNat 8 (0x80 + n))) s = .next t ∧
        t.pc.toNat = bytesAt s.mem (0xFF0000 + 3 * n) 3 ∧ OnlyChanges s t [] [] []) ∧
    bytesAt State.create.mem (0xFF0000 + 3 * n) 3 = 0

/-- With I set, a code below 0x80 that names no service halts with status 1, naming the code and the pc; under the default
map these are the codes from 0x08 on (R212). -/
def Obligations.IllegalInterruptCodeHalts : Prop :=
  (∀ (code : Byte) (s : State), s.flag .i = true → code < 0x80 → Config.hostServiceMap code = none →
    ∃ t, exec (.intCode code) s = .next t ∧ HaltsOnly s t 1 (.illegalHwInterrupt code s.pc)) ∧
  (∀ code : Byte, Config.hostServiceMap code = none ↔ 0x08 ≤ code)

/-- The exit service halts with the popped value as status and reason, SP moved up and pc left at the `int`, or raises the
pop's fault (R224). -/
def Obligations.ExitServiceHalts : Prop :=
  ∀ (code : Byte) (s : State), Runs code .exit s →
    (∀ (v : Word) (u : State), stackPop s = .ok (v, u) →
      ∃ t, exec (.intCode code) s = .next t ∧ HaltsOnly u t v (.exit v) ∧ t.reg .sp = s.reg .sp + 3 ∧ t.pc = s.pc ∧
        (∀ r, r ≠ .sp → t.reg r = s.reg r) ∧ t.flags = s.flags ∧ ∀ a, t.mem.read a = s.mem.read a) ∧
    (∀ f : Fault, stackPop s = .error f → exec (.intCode code) s = .fault f)

/-- The console-write service pops a value and emits its bits 7:0 (60_exceptions.md; which byte is decision D13). -/
def Obligations.ConsoleWriteEmitsTheLowByte : Prop :=
  ∀ (code : Byte) (s u : State) (v : Word), Runs code .consoleWrite s → stackPop s = .ok (v, u) →
    s.pc.toNat + 2 ≤ 0xFFFFFF →
    ∃ t, exec (.intCode code) s = .next t ∧ t.reg .sp = s.reg .sp + 3 ∧
      ServiceOnly s t [.sp] [] (.consoleOut (v.extractLsb' 0 8)) 0

/-- The console-read service pushes the host's byte, zero-extended, and records it; while the host does not answer, the
core stays as it is (60_exceptions.md; decision D14, log entries 9 and 10). It holds for every host answer. -/
def Obligations.ConsoleReadPushesTheByte : Prop :=
  ∀ (code : Byte) (s : State), Runs code .consoleRead s → 3 ≤ (s.reg .sp).toNat → s.pc.toNat + 2 ≤ 0xFFFFFF →
    ∃ t, exec (.intCode code) s = .next t ∧
      match Config.consoleIn s.draws with
      | none => t = s
      | some b => t.reg .sp = s.reg .sp - 3 ∧ t.mem.read (s.reg .sp).toNat = b ∧
          t.mem.read ((s.reg .sp).toNat - 1) = 0 ∧ t.mem.read ((s.reg .sp).toNat - 2) = 0 ∧
          ServiceOnly s t [.sp] [(s.reg .sp).toNat, (s.reg .sp).toNat - 1, (s.reg .sp).toNat - 2] (.consoleIn b) 1

/-- The reset service performs the host's reset: the core does not halt, pc is 0x030000 and not advanced, and memory is
unchanged (R227). -/
def Obligations.ResetServiceResets : Prop :=
  ∀ (code : Byte) (s : State), Runs code .reset s →
    ∃ t, exec (.intCode code) s = .next t ∧ t = hostReset s ∧ t.pc = 0x030000 ∧ t.run = .running ∧
      ∀ a, t.mem.read a = s.mem.read a

/-- The video-flush service only records the request and advances pc by 2 (R228). -/
def Obligations.VideoFlushOnlyRecords : Prop :=
  ∀ (code : Byte) (s : State), Runs code .videoFlush s → s.pc.toNat + 2 ≤ 0xFFFFFF →
    ∃ t, exec (.intCode code) s = .next t ∧ ServiceOnly s t [] [] .displayFlush 0

/-- The random and clock services write the host's value, zero-extended, to AX and nothing else but pc and the trace
(60_exceptions.md; the register is decision D11, the values are free by decision D12 and log entry 9, that the trace
records them is log entry 11). -/
def Obligations.RandomAndClockWriteTheServiceRegister : Prop :=
  ∀ (code : Byte) (s : State), s.pc.toNat + 2 ≤ 0xFFFFFF →
    (Runs code .random s → ∃ t, exec (.intCode code) s = .next t ∧
      (t.reg .ax).toNat = (Config.random s.draws).toNat ∧
      ServiceOnly s t [.ax] [] (.random (Config.random s.draws)) 1) ∧
    (Runs code .clock s → ∃ t, exec (.intCode code) s = .next t ∧
      t.reg .ax = Config.clock s.draws ∧ ServiceOnly s t [.ax] [] (.clock (Config.clock s.draws)) 1)

/-- The delay service only records the millisecond count in AX and advances pc by 2 (60_exceptions.md; the register is
decision D11, the cap D28). -/
def Obligations.DelayOnlyRecords : Prop :=
  ∀ (code : Byte) (s : State), Runs code .delay s → s.pc.toNat + 2 ≤ 0xFFFFFF →
    ∃ t, exec (.intCode code) s = .next t ∧ ServiceOnly s t [] [] (.delay (s.reg .ax)) 0

/-! 10_state.md -/

/-- The only flag writes of an instruction are `cmp`'s of Z and N, the clearing by a taken `je`, `jc`, `jn` or `ji`, and the
reset service's: every other instruction leaves the whole flags byte as it was (R38). -/
def Obligations.OnlyTheseInstructionsWriteFlags : Prop :=
  ∀ (i : Instr) (s t : State), exec i s = .next t → t.flags ≠ s.flags →
    (i.opcode = .cmpRImm ∧ t.flag .c = s.flag .c ∧ t.flag .i = s.flag .i ∧ t.flags &&& 0xF0#8 = s.flags &&& 0xF0#8) ∨
    (i.opcode = .jeT ∧ s.flag .z = true ∧ t.flags = flagPut s.flags .z false) ∨
    (i.opcode = .jcT ∧ s.flag .c = true ∧ t.flags = flagPut s.flags .c false) ∨
    (i.opcode = .jnT ∧ s.flag .n = true ∧ t.flags = flagPut s.flags .n false) ∨
    (i.opcode = .jiT ∧ s.flag .i = true ∧ t.flags = flagPut s.flags .i false) ∨
    (∃ code, i = .intCode code ∧ Runs code .reset s ∧ t.flags = (hostReset s).flags)

/-- No step sets I: once clear it stays clear until the host resets the core (10_state.md section 3). -/
def Obligations.InterruptEnableStaysClear : Prop :=
  ∀ s t : State, step s = .next t → s.flag .i = false → t.flag .i = false

/-- No step sets C, whatever the state (10_state.md section 3). -/
def Obligations.CarryIsNeverSet : Prop :=
  ∀ s t : State, step s = .next t → t.flag .c = true → s.flag .c = true

/-- Every step keeps the invariant: canonical memory, reserved flag bits zero, C clear, and a halt's status that agrees
with its reason (10_state.md, decision D3; log entries 5 and 13). -/
def Obligations.StepKeepsTheInvariant : Prop :=
  ∀ s t : State, s.Inv → step s = .next t → t.Inv

/-- The state after reset meets the invariant. -/
def Obligations.ResetMeetsTheInvariant : Prop := State.reset.Inv

/-- Every state that the host's interfaces reach from `create` meets the invariant, so in none of them is C set, `jc`
taken or `jnc` not taken (10_state.md section 3, 45_jumps.md). -/
def Obligations.ReachableStatesMeetTheInvariant : Prop :=
  ∀ s : State, Reachable s → s.Inv ∧
    (∀ target t, exec (.jcT target) s = .next t → t.pc = s.pc + 4) ∧
    (∀ target, ∃ t, exec (.jncT target) s = .next t ∧ t.pc = target)

/-! 70_reset_and_hazards.md -/

/-- The reset action gives every register, the flags byte, pc and the run state their reset values from any state,
halted or not, and leaves memory and the trace (R261). -/
def Obligations.ResetAction : Prop :=
  ∀ s : State,
    (∀ r ∈ [Reg.ax, .bx, .cx, .dx, .si, .gi], (hostReset s).reg r = 0) ∧
    (hostReset s).reg .sp = 0xFEFFFF ∧ (hostReset s).reg .bp = 0xFEFFFF ∧
    (hostReset s).pc = 0x030000 ∧ (hostReset s).flags = 0b00001000 ∧
    (hostReset s).flag .i = true ∧ (hostReset s).flag .z = false ∧
    (hostReset s).flag .n = false ∧ (hostReset s).flag .c = false ∧
    (hostReset s).run = .running ∧ (∀ a, (hostReset s).mem.read a = s.mem.read a) ∧ (hostReset s).trace = s.trace

/-- In the launch state of an image, memory holds at every address the byte of the image's last cell for it, and zero where
the image has none, and everything else is as in State.reset (70_reset_and_hazards.md, decision D26; log entry 15). -/
def Obligations.LaunchState : Prop :=
  (∀ image : List (Word × Byte),
    { State.launch image with mem := [] } = State.reset ∧ (State.launch image).mem.wf = true ∧
    ∀ a, (∀ cell ∈ image, cell.1 ≠ a) → (State.launch image).mem.read a.toNat = 0) ∧
  (∀ (image₁ image₂ : List (Word × Byte)) (a : Word) (b : Byte), (∀ cell ∈ image₂, cell.1 ≠ a) →
    (State.launch (image₁ ++ (a, b) :: image₂)).mem.read a.toNat = b)

/-- The host's memory accessors use the little-endian accessors with their range check, and a host write touches no
register, flag or pc; an access past the top raises `AddrWrap` (70_reset_and_hazards.md; the range check is decision D18,
log entry 6). -/
def Obligations.HostAccessorsTouchMemoryOnly : Prop :=
  ∀ (s : State) (n : Width) (a v : Word),
    (a.toNat + n.bytes ≤ 0x1000000 →
      (∃ x, hostRead n a s = .ok x ∧ x.toNat = bytesAt s.mem a.toNat n.bytes) ∧
      ∃ t, hostWrite n a v s = .ok t ∧ bytesAt t.mem a.toNat n.bytes = v.toNat % 2 ^ (8 * n.bytes) ∧
        (∀ b, (b < a.toNat ∨ a.toNat + n.bytes ≤ b) → t.mem.read b = s.mem.read b) ∧
        { t with mem := s.mem } = s) ∧
    (0x1000000 < a.toNat + n.bytes →
      hostRead n a s = .error (.addrWrap a n.bytes) ∧ hostWrite n a v s = .error (.addrWrap a n.bytes))

/-- `run` steps until the core halts and returns that halt's status: what it returns is a halted state some steps on, with
its status, and it returns whenever some number of steps reaches a halt (R264). -/
def Obligations.RunReportsTheHaltStatus : Prop :=
  (∀ (k : Nat) (s t : State) (report : Report), hostRun k s = some (.next (t, report)) →
    ∃ j status reason, Sys2Proof.core.run j s = .next t ∧ t.run = .halted status reason ∧ report = ⟨true, status⟩) ∧
  (∀ (j : Nat) (s t : State) (status : Word) (reason : HaltReason), Sys2Proof.core.run j s = .next t →
    t.run = .halted status reason → ∃ k, hostRun k s = some (.next (t, ⟨true, status⟩)))

/-- A safe run of any length from a state that meets the invariant ends in one, and a halted core's runs are all safe. -/
def Obligations.SafeRunsKeepTheInvariant : Prop :=
  (∀ (k : Nat) (s : State), s.Inv → SafeFor k s → ∃ t, Sys2Proof.core.run k s = .next t ∧ t.Inv) ∧
  (∀ (k : Nat) (s : State), s.run ≠ .running → SafeFor k s ∧ Sys2Proof.core.run k s = .next s)
end

