-- ==== Sys2Proof/Laws/Bytes.lean ====
section
/-! SUPPORT. Splitting a word into bytes and joining bytes little-endian undo each other, and joining is the sum of R53. -/

namespace Sys2Proof

/-- The little-endian sum of R53. -/
theorem joinBytes_toNat (b0 b1 b2 : Byte) :
    (joinBytes b0 b1 b2).toNat = b0.toNat + 256 * b1.toNat + 65536 * b2.toNat := by
  simp only [joinBytes, BitVec.toNat_append]
  have h0 := b0.isLt
  have h1 := b1.isLt
  rw [← Nat.shiftLeft_add_eq_or_of_lt (by omega), ← Nat.shiftLeft_add_eq_or_of_lt (by omega)]
  simp only [Nat.shiftLeft_eq]
  omega

/-- Byte `k` of a word as a number: bits 8k+7:8k (R54). -/
theorem byteOf_toNat (v : Word) (k : Nat) : (byteOf v k).toNat = v.toNat / 2 ^ (8 * k) % 256 := by
  simp [byteOf, BitVec.extractLsb'_toNat, Nat.shiftRight_eq_div_pow]

@[simp] theorem byteOf_joinBytes_zero (b0 b1 b2 : Byte) : byteOf (joinBytes b0 b1 b2) 0 = b0 := by
  apply BitVec.eq_of_toNat_eq
  rw [byteOf_toNat, joinBytes_toNat]
  have h0 := b0.isLt
  omega

@[simp] theorem byteOf_joinBytes_one (b0 b1 b2 : Byte) : byteOf (joinBytes b0 b1 b2) 1 = b1 := by
  apply BitVec.eq_of_toNat_eq
  rw [byteOf_toNat, joinBytes_toNat]
  have h0 := b0.isLt
  have h1 := b1.isLt
  omega

@[simp] theorem byteOf_joinBytes_two (b0 b1 b2 : Byte) : byteOf (joinBytes b0 b1 b2) 2 = b2 := by
  apply BitVec.eq_of_toNat_eq
  rw [byteOf_toNat, joinBytes_toNat]
  have h0 := b0.isLt
  have h1 := b1.isLt
  have h2 := b2.isLt
  omega

@[simp] theorem joinBytes_byteOf (v : Word) : joinBytes (byteOf v 0) (byteOf v 1) (byteOf v 2) = v := by
  apply BitVec.eq_of_toNat_eq
  rw [joinBytes_toNat, byteOf_toNat, byteOf_toNat, byteOf_toNat]
  have hv := v.isLt
  omega

/-- A byte joined with two zero bytes is the byte zero-extended (R86). -/
theorem joinBytes_zero_zero (b : Byte) : joinBytes b 0 0 = b.setWidth 24 := by
  apply BitVec.eq_of_toNat_eq
  rw [joinBytes_toNat, BitVec.toNat_setWidth]
  have hb := b.isLt
  simp
  omega

end Sys2Proof
end

