-- ==== Sys2Proof/Laws/Decode.lean ====
section
/-! SUPPORT. The opcode map's rows and the operand fields against their encoders, under every configuration the spec admits
and under the default one. -/

namespace Sys2Proof

open Machine (Configuration)

/-! The default configuration. -/

/-- The default parameters are ones the spec admits. -/
theorem defaults_valid : Config.defaults.Valid where
  rowsDisjoint := by decide +kernel
  pageEscape := by decide +kernel
  everyRegister r := by cases r <;> [exact ⟨0, rfl⟩; exact ⟨1, rfl⟩; exact ⟨2, rfl⟩; exact ⟨3, rfl⟩; exact ⟨4, rfl⟩; exact ⟨5, rfl⟩; exact ⟨6, rfl⟩; exact ⟨7, rfl⟩]
  flagInByte f := by cases f <;> decide
  flagsApart f g := by cases f <;> cases g <;> decide

/-- Every handler has one row, and its range fits (R84, R90). -/
theorem rowOf_opcodeRows (h : Opcode) : ∃ row, rowOf Config.opcodeRows h = some row ∧ row.fits = true := by
  cases h <;> exact ⟨_, rfl, by decide⟩

/-- The unassigned opcode bytes of the default map (R92). -/
theorem opcodeMap_none_iff : ∀ op : Byte,
    opcodeMap op = none ↔ (op = 0x00 ∨ (0x1B ≤ op ∧ op ≤ 0x1F) ∨ 0x68 ≤ op) := by
  decide +kernel

/-- With the default map's bases, opcode - base is the opcode's low three bits (R84). -/
theorem opcodeIndex_default : ∀ op : Byte, ∀ row, opcodeRow op = some row → row.opcode.format = .oa →
    opcodeIndex op row = op.extractLsb' 0 3 := by
  have h : ∀ op : Byte, (opcodeRow op).all
      (fun row => !(row.opcode.format == .oa) || opcodeIndex op row == op.extractLsb' 0 3) = true := by
    decide +kernel
  intro op row hr hf
  simpa [hr, hf] using h op

/-! Rows and operand fields under any configuration. -/

/-- Only a register-in-opcode handler depends on the index in the opcode. -/
theorem instrOf_index {h : Opcode} (hf : h.format ≠ .oa) (k k' : BitVec 3) (rest : List Byte) (cfg : Configuration) :
    instrOf h k rest cfg = instrOf h k' rest cfg := by
  cases h <;> first | rfl | exact absurd rfl hf

/-- Where no byte has two rows, a row that takes a byte is the byte's row (R90). -/
theorem opcodeRow_of_selects {cfg : Configuration} (hd : ∀ op : Byte, (cfg.opcodeRows.filter (OpcodeRow.selects op)).length ≤ 1)
    {row : OpcodeRow} (hm : row ∈ cfg.opcodeRows) {op : Byte} (hs : row.selects op = true) :
    opcodeRow op cfg = some row := by
  unfold opcodeRow
  obtain ⟨r, hr⟩ : ∃ r, cfg.opcodeRows.find? (OpcodeRow.selects op) = some r :=
    Option.isSome_iff_exists.mp (List.find?_isSome.mpr ⟨row, hm, hs⟩)
  have h1 : r ∈ cfg.opcodeRows.filter (OpcodeRow.selects op) :=
    List.mem_filter.mpr ⟨List.mem_of_find?_eq_some hr, List.find?_some hr⟩
  have h2 : row ∈ cfg.opcodeRows.filter (OpcodeRow.selects op) := List.mem_filter.mpr ⟨hm, hs⟩
  have hlen := hd op
  match hl : cfg.opcodeRows.filter (OpcodeRow.selects op) with
  | [] => simp [hl] at h1
  | [x] =>
    rw [hl, List.mem_singleton] at h1 h2
    rw [hr, h1, h2]
  | _ :: _ :: _ => simp [hl] at hlen

/-- The row of a handler is in the map and is the handler's. -/
theorem rowOf_some {rows : List OpcodeRow} {h : Opcode} {row : OpcodeRow} (hr : rowOf rows h = some row) :
    row ∈ rows ∧ row.opcode = h :=
  ⟨List.mem_of_find?_eq_some hr, by simpa using List.find?_some hr⟩

/-- A row takes every byte of its range. -/
theorem OpcodeRow.selects_add {row : OpcodeRow} (hf : row.fits = true) {k : BitVec 3}
    (hk : row.opcode.format = .oa ∨ k = 0) : row.selects (row.base + k.setWidth 8) = true := by
  have := k.isLt
  have h0 : k.toNat < row.opcode.format.opcodeCount := by
    rcases hk with hk | rfl
    · rw [hk]; exact k.isLt
    · cases row.opcode.format <;> decide
  simp only [OpcodeRow.fits, decide_eq_true_eq] at hf
  simp only [OpcodeRow.selects, decide_eq_true_eq, BitVec.toNat_add, BitVec.toNat_setWidth]
  omega

/-- Three bits put into a byte and taken out again. -/
theorem setWidth_extract : ∀ k : BitVec 3, (k.setWidth 8).extractLsb' 0 3 = k := by decide

/-- The index read back from a byte of the range (R84). -/
theorem opcodeIndex_add (row : OpcodeRow) (k : BitVec 3) : opcodeIndex (row.base + k.setWidth 8) row = k := by
  have : row.base + k.setWidth 8 - row.base = k.setWidth 8 := by rw [BitVec.add_comm, BitVec.add_sub_cancel]
  rw [opcodeIndex, this]
  exact setWidth_extract k

/-- Reading back a register index (R21). -/
theorem regOfIndex_indexOfReg {cfg : Configuration} (hr : ∀ r : Reg, ∃ k : BitVec 3, cfg.regOfIndex k = r) (r : Reg) :
    cfg.regOfIndex (indexOfReg r cfg) = r := by
  obtain ⟨k, hk⟩ := hr r
  have hmem : k ∈ ([0, 1, 2, 3, 4, 5, 6, 7] : List (BitVec 3)) :=
    (by decide : ∀ j : BitVec 3, j ∈ ([0, 1, 2, 3, 4, 5, 6, 7] : List (BitVec 3))) k
  unfold indexOfReg
  obtain ⟨j, hj⟩ : ∃ j, ([0, 1, 2, 3, 4, 5, 6, 7] : List (BitVec 3)).find? (fun k => cfg.regOfIndex k == r) = some j :=
    Option.isSome_iff_exists.mp (List.find?_isSome.mpr ⟨k, hmem, by simp [hk]⟩)
  rw [hj]
  simpa using List.find?_some hj

/-- The register byte read back (R83). -/
theorem regField_regByte {cfg : Configuration} (hr : ∀ r : Reg, ∃ k : BitVec 3, cfg.regOfIndex k = r) (r : Reg) :
    regField (regByte r cfg) cfg = r := by
  have : (regByte r cfg).extractLsb' 0 3 = indexOfReg r cfg := by
    unfold regByte
    exact setWidth_extract _
  rw [regField, this, regOfIndex_indexOfReg hr]

/-- The cluster byte read back (R87). -/
theorem clusterX_clusterByte {cfg : Configuration} (hr : ∀ r : Reg, ∃ k : BitVec 3, cfg.regOfIndex k = r) (x y : Reg) :
    clusterX (clusterByte x y cfg) cfg = x := by
  have : (clusterByte x y cfg).extractLsb' 3 3 = indexOfReg x cfg := by
    unfold clusterByte
    generalize indexOfReg x cfg = j
    generalize indexOfReg y cfg = k
    revert j k
    decide
  rw [clusterX, this, regOfIndex_indexOfReg hr]

theorem clusterY_clusterByte {cfg : Configuration} (hr : ∀ r : Reg, ∃ k : BitVec 3, cfg.regOfIndex k = r) (x y : Reg) :
    clusterY (clusterByte x y cfg) cfg = y := by
  have : (clusterByte x y cfg).extractLsb' 0 3 = indexOfReg y cfg := by
    unfold clusterByte
    generalize indexOfReg x cfg = j
    generalize indexOfReg y cfg = k
    revert j k
    decide
  rw [clusterY, this, regOfIndex_indexOfReg hr]

/-- The 24-bit field read back (R85). -/
@[simp] theorem imm24_immBytes (v : Word) (rest : List Byte) : imm24 (immBytes v ++ rest) = v := by
  simp [imm24, immBytes]

/-! The decoder. -/

/-- Decoding from a known row: the length is its handler's width (R80). -/
theorem decode_of_row {op : Byte} {row : OpcodeRow} {rest : List Byte} {cfg : Configuration}
    (hm : opcodeRow op cfg = some row) (hl : row.opcode.format.width ≤ rest.length + 1) :
    decode (op :: rest) cfg =
      .ok (instrOf row.opcode (opcodeIndex op row) rest cfg, rest.drop (row.opcode.format.width - 1)) := by
  simp only [decode, hm]
  rw [if_neg (by omega)]

/-- A handler of the map comes from a row. -/
theorem opcodeMap_some {op : Byte} {h : Opcode} {cfg : Configuration} (hm : opcodeMap op cfg = some h) :
    ∃ row, opcodeRow op cfg = some row ∧ row.opcode = h := by
  simpa [opcodeMap] using hm

/-- Decoding from a known handler of the default map. -/
theorem decode_of_opcode {op : Byte} {h : Opcode} {rest : List Byte} (hm : opcodeMap op = some h)
    (hl : h.format.width ≤ rest.length + 1) :
    decode (op :: rest) = .ok (instrOf h (op.extractLsb' 0 3) rest, rest.drop (h.format.width - 1)) := by
  obtain ⟨row, hr, rfl⟩ := opcodeMap_some hm
  rw [decode_of_row hr hl]
  by_cases hf : row.opcode.format = .oa
  · rw [opcodeIndex_default op row hr hf]
  · rw [instrOf_index hf _ (op.extractLsb' 0 3)]

/-- Too few bytes for a known handler (R29). -/
theorem decode_of_short {op : Byte} {h : Opcode} {rest : List Byte} {cfg : Configuration} (hm : opcodeMap op cfg = some h)
    (hl : rest.length + 1 < h.format.width) : decode (op :: rest) cfg = .error (.truncated h.format.width) := by
  obtain ⟨row, hr, rfl⟩ := opcodeMap_some hm
  simp only [decode, hr]
  rw [if_pos hl]

theorem decode_of_illegal {op : Byte} {rest : List Byte} {cfg : Configuration} (hm : opcodeMap op cfg = none) :
    decode (op :: rest) cfg = .error (.illegalOpcode op) := by
  have : opcodeRow op cfg = none := by simpa [opcodeMap] using hm
  simp only [decode, this]

/-- What the decoder needs: the bytes it consumes are the width of the instruction it gives (R80). -/
theorem decode_ok {bs rest : List Byte} {i : Instr} {cfg : Configuration} (h : decode bs cfg = .ok (i, rest)) :
    ∃ op tail row, bs = op :: tail ∧ opcodeRow op cfg = some row ∧ row.opcode.format.width ≤ tail.length + 1 ∧
      i = instrOf row.opcode (opcodeIndex op row) tail cfg ∧ rest = tail.drop (row.opcode.format.width - 1) := by
  cases bs with
  | nil => cases h
  | cons op tail =>
    simp only [decode] at h
    split at h
    · cases h
    · next row hrow =>
      split at h
      · cases h
      · cases h
        exact ⟨op, tail, row, rfl, hrow, by omega, rfl, rfl⟩

/-- The same of the default map, by its handler. -/
theorem decode_ok_opcode {bs rest : List Byte} {i : Instr} (h : decode bs = .ok (i, rest)) :
    ∃ op tail o, bs = op :: tail ∧ opcodeMap op = some o ∧ o.format.width ≤ tail.length + 1 ∧
      i = instrOf o (op.extractLsb' 0 3) tail ∧ rest = tail.drop (o.format.width - 1) := by
  obtain ⟨op, tail, row, rfl, hr, hw, rfl, rfl⟩ := decode_ok h
  refine ⟨op, tail, row.opcode, rfl, by rw [opcodeMap, hr]; rfl, hw, ?_, rfl⟩
  by_cases hf : row.opcode.format = .oa
  · rw [opcodeIndex_default op row hr hf]
  · rw [instrOf_index hf _ (op.extractLsb' 0 3)]

/-- An encoded opcode byte of a well-formed instruction is its handler's row's (R84, R90). -/
theorem opcodeRow_baseOpcode {cfg : Configuration} (hv : cfg.Valid) {i : Instr} (hw : i.wellFormed cfg = true) {k : BitVec 3}
    (hk : i.opcode.format = .oa ∨ k = 0) :
    ∃ row, opcodeRow (baseOpcode i.opcode cfg + k.setWidth 8) cfg = some row ∧ row.opcode = i.opcode ∧
      baseOpcode i.opcode cfg = row.base := by
  unfold Instr.wellFormed Instr.wellFormedIn at hw
  split at hw
  · next row hr =>
    obtain ⟨hm, ho⟩ := rowOf_some hr
    have hb : baseOpcode i.opcode cfg = row.base := by rw [baseOpcode, hr]
    rw [hb]
    exact ⟨row, opcodeRow_of_selects hv.rowsDisjoint hm (row.selects_add hw (ho ▸ hk)), ho, rfl⟩
  · cases hw

/-- The handler of the instruction made for a handler. -/
@[simp] theorem instrOf_opcode (h : Opcode) (k : BitVec 3) (tail : List Byte) (cfg : Configuration) :
    (instrOf h k tail cfg).opcode = h := by
  cases h <;> rfl

end Sys2Proof
end

