-- ==== Sys2Proof/Laws/Memory.lean ====
section
/-! SUPPORT. The laws of the memory: a read after a write, and that every operation keeps the canonical form. -/

namespace Sys2Proof.Machine

theorem Memory.read_cons (k : Nat) (v : Byte) (m : Memory) (a : Nat) :
    Memory.read ((k, v) :: m) a = if k = a then v else m.read a := rfl

theorem Memory.erase_cons (k : Nat) (v : Byte) (m : Memory) (a : Nat) :
    Memory.erase ((k, v) :: m) a = if k = a then m.erase a else (k, v) :: m.erase a := by
  by_cases h : k = a <;> simp [Memory.erase, h]

/-- After an erase the address reads as unlisted, and every other address as before. -/
theorem Memory.read_erase (m : Memory) (a a' : Nat) :
    (m.erase a).read a' = if a' = a then unlistedByte else m.read a' := by
  induction m with
  | nil => simp [Memory.erase, Memory.read]
  | cons cell m ih =>
    obtain ⟨k, v⟩ := cell
    rw [Memory.erase_cons, Memory.read_cons]
    by_cases hk : k = a
    · rw [if_pos hk, ih]
      subst hk
      by_cases ha : a' = k
      · simp [ha]
      · simp [ha, Ne.symm ha]
    · rw [if_neg hk, Memory.read_cons, ih]
      by_cases ha : a' = a
      · subst ha
        simp [hk]
      · simp [ha]

/-- Inserting an entry for an address with none: that address reads the byte, and every other address as before. -/
theorem Memory.read_insert (m : Memory) (a a' : Nat) (b : Byte) (h : ∀ cell ∈ m, cell.1 ≠ a) :
    (m.insert a b).read a' = if a' = a then b else m.read a' := by
  induction m with
  | nil =>
    simp only [Memory.insert, Memory.read]
    by_cases ha : a' = a
    · simp [ha]
    · simp [ha, Ne.symm ha]
  | cons cell m ih =>
    obtain ⟨k, v⟩ := cell
    have hk : k ≠ a := h (k, v) (by simp)
    have hm : ∀ cell ∈ m, cell.1 ≠ a := fun cell hc => h cell (by simp [hc])
    rw [Memory.insert]
    split
    · rw [Memory.read_cons]
      by_cases ha : a' = a
      · simp [ha]
      · simp [ha, Ne.symm ha]
    · rw [Memory.read_cons, ih hm, Memory.read_cons]
      by_cases ha : a' = a
      · subst ha
        simp [hk]
      · simp [ha]

theorem Memory.erase_no_entry (m : Memory) (a : Nat) : ∀ cell ∈ m.erase a, cell.1 ≠ a := by
  intro cell hc
  simpa [Memory.erase] using (List.mem_filter.mp hc).2

/-- A read after a write gives the byte written at that address and the old byte at every other (R52, R67). No
hypothesis on the memory's form is needed. -/
@[simp] theorem Memory.read_write (m : Memory) (a a' : Nat) (b : Byte) :
    (m.write a b).read a' = if a' = a then b else m.read a' := by
  unfold Memory.write
  split
  · next hb => rw [Memory.read_erase, hb]
  · rw [Memory.read_insert _ _ _ _ (m.erase_no_entry a), Memory.read_erase]
    by_cases ha : a' = a <;> simp [ha]

/-! The canonical form. -/

theorem Memory.wfFrom_mono {lo lo' : Nat} (m : Memory) (h : lo' ≤ lo) (hw : m.wfFrom lo = true) :
    m.wfFrom lo' = true := by
  cases m with
  | nil => rfl
  | cons cell m =>
    simp only [Memory.wfFrom, Bool.and_eq_true, decide_eq_true_eq] at hw ⊢
    exact ⟨⟨⟨by omega, hw.1.1.2⟩, hw.1.2⟩, hw.2⟩

theorem Memory.wfFrom_erase (lo : Nat) (m : Memory) (a : Nat) (hw : m.wfFrom lo = true) :
    (m.erase a).wfFrom lo = true := by
  induction m generalizing lo with
  | nil => rfl
  | cons cell m ih =>
    obtain ⟨k, v⟩ := cell
    rw [Memory.erase_cons]
    simp only [Memory.wfFrom, Bool.and_eq_true, decide_eq_true_eq] at hw
    split
    · exact ih lo (Memory.wfFrom_mono m (by omega) hw.2)
    · simp only [Memory.wfFrom, Bool.and_eq_true, decide_eq_true_eq]
      exact ⟨hw.1, ih _ hw.2⟩

theorem Memory.wfFrom_insert (lo : Nat) (m : Memory) (a : Nat) (b : Byte) (hw : m.wfFrom lo = true)
    (hlo : lo ≤ a) (ha : a < Config.memSize) (hb : b ≠ unlistedByte) (hn : ∀ cell ∈ m, cell.1 ≠ a) :
    (m.insert a b).wfFrom lo = true := by
  induction m generalizing lo with
  | nil => simp [Memory.insert, Memory.wfFrom, hlo, ha, hb]
  | cons cell m ih =>
    obtain ⟨k, v⟩ := cell
    have hk : k ≠ a := hn (k, v) (by simp)
    simp only [Memory.wfFrom, Bool.and_eq_true, decide_eq_true_eq, bne_iff_ne] at hw
    rw [Memory.insert]
    split
    · simp only [Memory.wfFrom, Bool.and_eq_true, decide_eq_true_eq, bne_iff_ne]
      exact ⟨⟨⟨hlo, ha⟩, hb⟩, ⟨⟨by omega, hw.1.1.2⟩, hw.1.2⟩, hw.2⟩
    · simp only [Memory.wfFrom, Bool.and_eq_true, decide_eq_true_eq, bne_iff_ne]
      exact ⟨hw.1, ih _ hw.2 (by omega) fun cell hc => hn cell (by simp [hc])⟩

/-- Every write inside the memory keeps the canonical form. -/
theorem Memory.wf_write (m : Memory) (a : Nat) (b : Byte) (hw : m.wf = true) (ha : a < Config.memSize) :
    (m.write a b).wf = true := by
  unfold Memory.write
  split
  · exact Memory.wfFrom_erase 0 m a hw
  · next hb =>
    exact Memory.wfFrom_insert 0 _ a b (Memory.wfFrom_erase 0 m a hw) (Nat.zero_le a) ha hb (m.erase_no_entry a)

@[simp] theorem Memory.wf_nil : Memory.wf [] = true := rfl

end Sys2Proof.Machine
end

