-- ==== Sys2Proof/Laws/State.lean ====
section
/-! SUPPORT. One lemma per field per update of the state, true by rfl, and what a register or flag reads after each
update: no later proof unfolds a record update. -/

namespace Sys2Proof.Machine

/-! The default configuration, parameter by parameter. -/

@[simp] theorem defaults_opcodeRows : Config.defaults.opcodeRows = Config.opcodeRows := rfl
@[simp] theorem defaults_extOpcodeMap : Config.defaults.extOpcodeMap = Config.extOpcodeMap := rfl
@[simp] theorem defaults_regOfIndex : Config.defaults.regOfIndex = Config.regOfIndex := rfl
@[simp] theorem defaults_flagBit : Config.defaults.flagBit = Config.flagBit := rfl
@[simp] theorem defaults_hostServiceMap : Config.defaults.hostServiceMap = Config.hostServiceMap := rfl
@[simp] theorem defaults_serviceReg : Config.defaults.serviceReg = Config.serviceReg := rfl
@[simp] theorem defaults_clusterDest : Config.defaults.clusterDest = Config.clusterDest := rfl
@[simp] theorem defaults_stackSlotLayout : Config.defaults.stackSlotLayout = Config.stackSlotLayout := rfl
@[simp] theorem defaults_cmpSignReading : Config.defaults.cmpSignReading = Config.cmpSignReading := rfl
@[simp] theorem defaults_delayCapMs : Config.defaults.delayCapMs = Config.delayCapMs := rfl

/-! The fields after each update. -/

@[simp] theorem State.setReg_regs (s : State) (r : Reg) (v : Word) : (s.setReg r v).regs = s.regs.set r v := rfl
@[simp] theorem State.setReg_pc (s : State) (r : Reg) (v : Word) : (s.setReg r v).pc = s.pc := rfl
@[simp] theorem State.setReg_flags (s : State) (r : Reg) (v : Word) : (s.setReg r v).flags = s.flags := rfl
@[simp] theorem State.setReg_mem (s : State) (r : Reg) (v : Word) : (s.setReg r v).mem = s.mem := rfl
@[simp] theorem State.setReg_run (s : State) (r : Reg) (v : Word) : (s.setReg r v).run = s.run := rfl
@[simp] theorem State.setReg_trace (s : State) (r : Reg) (v : Word) : (s.setReg r v).trace = s.trace := rfl
@[simp] theorem State.setReg_draws (s : State) (r : Reg) (v : Word) : (s.setReg r v).draws = s.draws := rfl

@[simp] theorem State.setPc_regs (s : State) (v : Word) : (s.setPc v).regs = s.regs := rfl
@[simp] theorem State.setPc_pc (s : State) (v : Word) : (s.setPc v).pc = v := rfl
@[simp] theorem State.setPc_flags (s : State) (v : Word) : (s.setPc v).flags = s.flags := rfl
@[simp] theorem State.setPc_mem (s : State) (v : Word) : (s.setPc v).mem = s.mem := rfl
@[simp] theorem State.setPc_run (s : State) (v : Word) : (s.setPc v).run = s.run := rfl
@[simp] theorem State.setPc_trace (s : State) (v : Word) : (s.setPc v).trace = s.trace := rfl
@[simp] theorem State.setPc_draws (s : State) (v : Word) : (s.setPc v).draws = s.draws := rfl

@[simp] theorem State.setFlag_regs {cfg : Configuration} (s : State) (f : Flag) (b : Bool) : (s.setFlag f b cfg).regs = s.regs := rfl
@[simp] theorem State.setFlag_pc {cfg : Configuration} (s : State) (f : Flag) (b : Bool) : (s.setFlag f b cfg).pc = s.pc := rfl
@[simp] theorem State.setFlag_flags {cfg : Configuration} (s : State) (f : Flag) (b : Bool) : (s.setFlag f b cfg).flags = flagPut s.flags f b cfg := rfl
@[simp] theorem State.setFlag_mem {cfg : Configuration} (s : State) (f : Flag) (b : Bool) : (s.setFlag f b cfg).mem = s.mem := rfl
@[simp] theorem State.setFlag_run {cfg : Configuration} (s : State) (f : Flag) (b : Bool) : (s.setFlag f b cfg).run = s.run := rfl
@[simp] theorem State.setFlag_trace {cfg : Configuration} (s : State) (f : Flag) (b : Bool) : (s.setFlag f b cfg).trace = s.trace := rfl
@[simp] theorem State.setFlag_draws {cfg : Configuration} (s : State) (f : Flag) (b : Bool) : (s.setFlag f b cfg).draws = s.draws := rfl

@[simp] theorem State.record_regs (s : State) (e : HostEvent) : (s.record e).regs = s.regs := rfl
@[simp] theorem State.record_pc (s : State) (e : HostEvent) : (s.record e).pc = s.pc := rfl
@[simp] theorem State.record_flags (s : State) (e : HostEvent) : (s.record e).flags = s.flags := rfl
@[simp] theorem State.record_mem (s : State) (e : HostEvent) : (s.record e).mem = s.mem := rfl
@[simp] theorem State.record_run (s : State) (e : HostEvent) : (s.record e).run = s.run := rfl
@[simp] theorem State.record_trace (s : State) (e : HostEvent) : (s.record e).trace = s.trace ++ [e] := rfl
@[simp] theorem State.record_draws (s : State) (e : HostEvent) : (s.record e).draws = s.draws := rfl

@[simp] theorem State.drawn_regs (s : State) : (s.drawn).regs = s.regs := rfl
@[simp] theorem State.drawn_pc (s : State) : (s.drawn).pc = s.pc := rfl
@[simp] theorem State.drawn_flags (s : State) : (s.drawn).flags = s.flags := rfl
@[simp] theorem State.drawn_mem (s : State) : (s.drawn).mem = s.mem := rfl
@[simp] theorem State.drawn_run (s : State) : (s.drawn).run = s.run := rfl
@[simp] theorem State.drawn_trace (s : State) : (s.drawn).trace = s.trace := rfl
@[simp] theorem State.drawn_draws (s : State) : (s.drawn).draws = s.draws + 1 := rfl

/-! Registers. -/

/-- A register file reads what was last written, every register alike (R10, R22). -/
@[simp] theorem Regs.get_set (g : Regs) (r q : Reg) (v : Word) : (g.set r v).get q = if q = r then v else g.get q := by
  cases r <;> cases q <;> rfl

@[simp] theorem State.reg_setReg (s : State) (r q : Reg) (v : Word) :
    (s.setReg r v).reg q = if q = r then v else s.reg q := Regs.get_set s.regs r q v

@[simp] theorem State.reg_setPc (s : State) (v : Word) (q : Reg) : (s.setPc v).reg q = s.reg q := rfl
@[simp] theorem State.reg_setFlag {cfg : Configuration} (s : State) (f : Flag) (b : Bool) (q : Reg) : (s.setFlag f b cfg).reg q = s.reg q := rfl
@[simp] theorem State.reg_record (s : State) (e : HostEvent) (q : Reg) : (s.record e).reg q = s.reg q := rfl
@[simp] theorem State.reg_drawn (s : State) (q : Reg) : s.drawn.reg q = s.reg q := rfl
@[simp] theorem State.reg_mem (s : State) (m : Memory) (q : Reg) : ({ s with mem := m } : State).reg q = s.reg q := rfl
@[simp] theorem State.reg_run (s : State) (x : RunState) (q : Reg) : ({ s with run := x } : State).reg q = s.reg q := rfl

/-! Flags. -/

/-- A flag reads what was last written to it, and the other flags as before (R10, R31). -/
@[simp] theorem flagGet_flagPut (fl : BitVec 8) (f g : Flag) (b : Bool) :
    flagGet (flagPut fl f b) g = if g = f then b else flagGet fl g := by
  cases f <;> cases g <;> cases b <;> simp [flagGet, flagPut, flagMask, Config.flagBit]

/-- The same under every configuration the spec admits (R32). -/
theorem flagGet_flagPut_of_valid {cfg : Configuration} (hv : cfg.Valid) (fl : BitVec 8) (f g : Flag) (b : Bool) :
    flagGet (flagPut fl f b cfg) g cfg = if g = f then b else flagGet fl g cfg := by
  have hf := hv.flagInByte f
  have hg := hv.flagInByte g
  have hfg := hv.flagsApart g f
  by_cases h : g = f
  · subst h
    cases b <;> simp [flagGet, flagPut, flagMask, hg]
  · have hne : cfg.flagBit g ≠ cfg.flagBit f := fun he => h (hfg he)
    cases b <;> simp [flagGet, flagPut, flagMask, hg, h] <;> omega

/-- Writing a flag leaves the reserved bits 7:4 as they were (R37). -/
@[simp] theorem flagPut_reserved (fl : BitVec 8) (f : Flag) (b : Bool) : flagPut fl f b &&& 0xF0#8 = fl &&& 0xF0#8 := by
  cases f <;> cases b <;> revert fl <;> decide

@[simp] theorem State.flag_setFlag (s : State) (f g : Flag) (b : Bool) :
    (s.setFlag f b).flag g = if g = f then b else s.flag g := flagGet_flagPut s.flags f g b

@[simp] theorem State.flag_setReg {cfg : Configuration} (s : State) (r : Reg) (v : Word) (g : Flag) : (s.setReg r v).flag g cfg = s.flag g cfg := rfl
@[simp] theorem State.flag_setPc {cfg : Configuration} (s : State) (v : Word) (g : Flag) : (s.setPc v).flag g cfg = s.flag g cfg := rfl
@[simp] theorem State.flag_record {cfg : Configuration} (s : State) (e : HostEvent) (g : Flag) : (s.record e).flag g cfg = s.flag g cfg := rfl
@[simp] theorem State.flag_drawn {cfg : Configuration} (s : State) (g : Flag) : s.drawn.flag g cfg = s.flag g cfg := rfl
@[simp] theorem State.flag_mem {cfg : Configuration} (s : State) (m : Memory) (g : Flag) : ({ s with mem := m } : State).flag g cfg = s.flag g cfg := rfl
@[simp] theorem State.flag_run {cfg : Configuration} (s : State) (x : RunState) (g : Flag) : ({ s with run := x } : State).flag g cfg = s.flag g cfg := rfl

/-! `setCompareFlags` and the reset action. -/

@[simp] theorem State.setCompareFlags_regs {cfg : Configuration} (s : State) (v w : Word) : (s.setCompareFlags v w cfg).regs = s.regs := rfl
@[simp] theorem State.setCompareFlags_pc {cfg : Configuration} (s : State) (v w : Word) : (s.setCompareFlags v w cfg).pc = s.pc := rfl
@[simp] theorem State.setCompareFlags_mem {cfg : Configuration} (s : State) (v w : Word) : (s.setCompareFlags v w cfg).mem = s.mem := rfl
@[simp] theorem State.setCompareFlags_run {cfg : Configuration} (s : State) (v w : Word) : (s.setCompareFlags v w cfg).run = s.run := rfl
@[simp] theorem State.setCompareFlags_trace {cfg : Configuration} (s : State) (v w : Word) : (s.setCompareFlags v w cfg).trace = s.trace := rfl
@[simp] theorem State.setCompareFlags_draws {cfg : Configuration} (s : State) (v w : Word) : (s.setCompareFlags v w cfg).draws = s.draws := rfl
@[simp] theorem State.reg_setCompareFlags {cfg : Configuration} (s : State) (v w : Word) (q : Reg) :
    (s.setCompareFlags v w cfg).reg q = s.reg q := rfl

/-- `cmp` writes Z and N and leaves C and I (R155). -/
@[simp] theorem State.flag_setCompareFlags (s : State) (v w : Word) (g : Flag) :
    (s.setCompareFlags v w).flag g = match g with
      | .z => cmpZero v w
      | .n => cmpNegative Config.cmpSignReading v w
      | .c => s.flag .c
      | .i => s.flag .i := by
  cases g <;> simp [State.setCompareFlags]

@[simp] theorem State.setCompareFlags_reserved (s : State) (v w : Word) :
    (s.setCompareFlags v w).flags &&& 0xF0#8 = s.flags &&& 0xF0#8 := by
  simp [State.setCompareFlags]

@[simp] theorem resetAction_pc {cfg : Configuration} (s : State) : (resetAction s cfg).pc = Config.resetVector := rfl
@[simp] theorem resetAction_flags (s : State) : (resetAction s).flags = 0x08#8 := rfl
@[simp] theorem resetAction_mem {cfg : Configuration} (s : State) : (resetAction s cfg).mem = s.mem := rfl
@[simp] theorem resetAction_run {cfg : Configuration} (s : State) : (resetAction s cfg).run = .running := rfl
@[simp] theorem resetAction_trace {cfg : Configuration} (s : State) : (resetAction s cfg).trace = s.trace := rfl
@[simp] theorem resetAction_draws {cfg : Configuration} (s : State) : (resetAction s cfg).draws = s.draws := rfl

/-- The registers after the reset action (R261). -/
@[simp] theorem reg_resetAction {cfg : Configuration} (s : State) (q : Reg) :
    (resetAction s cfg).reg q = match q with
      | .sp => Config.initialStack
      | .bp => Config.initialStack
      | .ax | .bx | .cx | .dx | .si | .gi => 0 := by
  cases q <;> rfl

/-- The flags after the reset action: I set, the others clear (R261). -/
@[simp] theorem flag_resetAction (s : State) (g : Flag) : (resetAction s).flag g = (g == .i) := by
  show flagGet 0x08#8 g = (g == .i)
  cases g <;> decide

/-- State.reset is the reset action on a freshly created state (R266, R267). -/
theorem resetAction_create : resetAction State.create = State.reset := rfl

end Sys2Proof.Machine
end

