-- ==== Sys2Proof/Laws/Ops.lean ====
section
/-! SUPPORT. For each shared operation, when it completes and everything it then does, so that no later proof unfolds
it. -/

namespace Sys2Proof.Machine

@[simp] theorem memSize_eq : Config.memSize = 0x1000000 := rfl

/-! The sequential advance. -/

/-- The advance completes while it stays at or below 0xFFFFFF (R30). -/
theorem advance_of_le {w : Nat} {s : State} (h : s.pc.toNat + w ≤ 0xFFFFFF) :
    advance w s = .next (s.setPc (s.pc + BitVec.ofNat 24 w)) := by
  unfold advance
  rw [if_neg (by omega)]

/-- Past 0xFFFFFF it raises `PcWrap` (R30). -/
theorem advance_of_gt {w : Nat} {s : State} (h : 0xFFFFFF < s.pc.toNat + w) : advance w s = .fault (.pcWrap s.pc) := by
  unfold advance
  rw [if_pos (by omega)]

/-- What a completed advance did. -/
theorem advance_next {w : Nat} {s t : State} (h : advance w s = .next t) :
    s.pc.toNat + w ≤ 0xFFFFFF ∧ t = s.setPc (s.pc + BitVec.ofNat 24 w) := by
  unfold advance at h
  split at h
  · cases h
  · cases h
    exact ⟨by omega, rfl⟩

theorem setRegAdvance_of_le {w : Nat} {r : Reg} {v : Word} {s : State} (h : s.pc.toNat + w ≤ 0xFFFFFF) :
    setRegAdvance w r v s = .next ((s.setReg r v).setPc (s.pc + BitVec.ofNat 24 w)) :=
  advance_of_le (s := s.setReg r v) h

theorem setRegAdvance_next {w : Nat} {r : Reg} {v : Word} {s t : State} (h : setRegAdvance w r v s = .next t) :
    s.pc.toNat + w ≤ 0xFFFFFF ∧ t = (s.setReg r v).setPc (s.pc + BitVec.ofNat 24 w) :=
  advance_next (s := s.setReg r v) h

/-! Memory. -/

theorem inMemory_byte (a : Word) : inMemory a 1 = true := by
  have := a.isLt
  simp [inMemory]
  omega

/-- A one-byte read always succeeds (R52). -/
@[simp] theorem memRead_byte (m : Memory) (a : Word) : memRead m a .byte = .ok ((m.read a.toNat).setWidth 24) := by
  simp only [memRead, Width.bytes, inMemory_byte, if_true, joinBytes_zero_zero]

/-- A one-byte write always succeeds (R52). -/
@[simp] theorem memWrite_byte (m : Memory) (a v : Word) :
    memWrite m a .byte v = .ok (m.write a.toNat (byteOf v 0)) := by
  simp only [memWrite, Width.bytes, inMemory_byte, if_true]

theorem inMemory_iff (a : Word) (n : Nat) : inMemory a n = true ↔ a.toNat + n ≤ 0x1000000 := by
  unfold inMemory
  exact decide_eq_true_iff

/-- Writes of any width change the accessed bytes only, each to its byte of the value (R54). -/
theorem memWrite_ok {m m' : Memory} {a v : Word} {n : Width} (h : memWrite m a n v = .ok m') :
    a.toNat + n.bytes ≤ 0x1000000 ∧
      (∀ k < n.bytes, m'.read (a.toNat + k) = byteOf v k) ∧
      (∀ b, (b < a.toNat ∨ a.toNat + n.bytes ≤ b) → m'.read b = m.read b) := by
  unfold memWrite at h
  split at h
  · next hin =>
    refine ⟨(inMemory_iff a n.bytes).mp hin, ?_, ?_⟩
    · cases n <;> cases h <;> intro k hk <;> simp only [Width.bytes] at hk <;> simp only [Memory.read_write]
      · obtain rfl : k = 0 := by omega
        simp
      · obtain rfl | rfl : k = 0 ∨ k = 1 := by omega
        all_goals simp
      · obtain rfl | rfl | rfl : k = 0 ∨ k = 1 ∨ k = 2 := by omega
        all_goals simp
    · cases n <;> cases h <;> intro b hb <;> simp only [Width.bytes] at hb <;> simp only [Memory.read_write] <;> grind
  · cases h

/-- Every memory write keeps the canonical form. -/
theorem memWrite_wf {m m' : Memory} {a v : Word} {n : Width} (hw : m.wf = true) (h : memWrite m a n v = .ok m') :
    m'.wf = true := by
  have hin := (memWrite_ok h).1
  unfold memWrite at h
  split at h
  · cases n <;> simp only [Width.bytes] at hin <;> cases h
    · exact Memory.wf_write _ _ _ hw (by simp; omega)
    · exact Memory.wf_write _ _ _ (Memory.wf_write _ _ _ hw (by simp; omega)) (by simp; omega)
    · exact Memory.wf_write _ _ _ (Memory.wf_write _ _ _ (Memory.wf_write _ _ _ hw (by simp; omega)) (by simp; omega))
        (by simp; omega)
  · cases h

/-- A read or write inside the memory does not fault, and one past its top does (R55). -/
theorem memRead_of_gt {m : Memory} {a : Word} {n : Width} (h : 0x1000000 < a.toNat + n.bytes) :
    memRead m a n = .error (.addrWrap a n.bytes) := by
  unfold memRead
  rw [if_neg (by rw [inMemory_iff]; omega)]

theorem memWrite_of_gt {m : Memory} {a v : Word} {n : Width} (h : 0x1000000 < a.toNat + n.bytes) :
    memWrite m a n v = .error (.addrWrap a n.bytes) := by
  unfold memWrite
  rw [if_neg (by rw [inMemory_iff]; omega)]

theorem memRead_word {m : Memory} {a : Word} (h : a.toNat + 2 ≤ 0x1000000) :
    memRead m a .word = .ok (joinBytes (m.read a.toNat) (m.read (a.toNat + 1)) 0) := by
  unfold memRead
  rw [if_pos ((inMemory_iff a Width.word.bytes).mpr h)]

theorem memRead_triple {m : Memory} {a : Word} (h : a.toNat + 3 ≤ 0x1000000) :
    memRead m a .triple = .ok (joinBytes (m.read a.toNat) (m.read (a.toNat + 1)) (m.read (a.toNat + 2))) := by
  unfold memRead
  rw [if_pos ((inMemory_iff a Width.triple.bytes).mpr h)]

theorem memWrite_word {m : Memory} {a v : Word} (h : a.toNat + 2 ≤ 0x1000000) :
    memWrite m a .word v = .ok ((m.write a.toNat (byteOf v 0)).write (a.toNat + 1) (byteOf v 1)) := by
  unfold memWrite
  rw [if_pos ((inMemory_iff a Width.word.bytes).mpr h)]

theorem withRead_of_ok {s : State} {a v : Word} {n : Width} {k : Word → Result} (h : memRead s.mem a n = .ok v) :
    withRead s a n k = k v := by
  simp [withRead, h]

theorem withRead_of_error {s : State} {a : Word} {n : Width} {f : Fault} {k : Word → Result}
    (h : memRead s.mem a n = .error f) : withRead s a n k = .fault f := by
  simp [withRead, h]

/-- What a completed read-and-continue did. -/
theorem withRead_next {s t : State} {a : Word} {n : Width} {k : Word → Result} (h : withRead s a n k = .next t) :
    ∃ v, memRead s.mem a n = .ok v ∧ k v = .next t := by
  unfold withRead at h
  split at h
  · next v hv => exact ⟨v, hv, h⟩
  · cases h

theorem withWrite_of_ok {s : State} {a v : Word} {n : Width} {m : Memory} {k : State → Result}
    (h : memWrite s.mem a n v = .ok m) : withWrite s a n v k = k { s with mem := m } := by
  simp [withWrite, h]

theorem withWrite_of_error {s : State} {a v : Word} {n : Width} {f : Fault} {k : State → Result}
    (h : memWrite s.mem a n v = .error f) : withWrite s a n v k = .fault f := by
  simp [withWrite, h]

/-- What a completed write-and-continue did. -/
theorem withWrite_next {s t : State} {a v : Word} {n : Width} {k : State → Result}
    (h : withWrite s a n v k = .next t) :
    ∃ m, memWrite s.mem a n v = .ok m ∧ k { s with mem := m } = .next t := by
  unfold withWrite at h
  split at h
  · next m hm => exact ⟨m, hm, h⟩
  · cases h

/-! Operand forms: first where the access runs past the top of memory (R55), then what a completed one did. -/

theorem loadInto_of_gt {r : Reg} {n : Width} {a : Word} {f : Word → Word} {s : State}
    (h : 0x1000000 < a.toNat + n.bytes) : loadInto r n a f s = .fault (.addrWrap a n.bytes) :=
  withRead_of_error (memRead_of_gt h)

theorem storeAt_of_gt {n : Width} {a v : Word} {s : State} (h : 0x1000000 < a.toNat + n.bytes) :
    storeAt n a v s = .fault (.addrWrap a n.bytes) :=
  withWrite_of_error (memWrite_of_gt h)

theorem modifyAt_of_gt {n : Width} {a : Word} {f : Word → Word} {s : State} (h : 0x1000000 < a.toNat + n.bytes) :
    modifyAt n a f s = .fault (.addrWrap a n.bytes) :=
  withRead_of_error (memRead_of_gt h)

theorem autoIncrementLoad_of_gt {n : Width} {x y : Reg} {s : State} (h : 0x1000000 < (s.reg x).toNat + n.bytes) :
    autoIncrementLoad n x y s = .fault (.addrWrap (s.reg x) n.bytes) :=
  withRead_of_error (memRead_of_gt h)

theorem loadInto_next {r : Reg} {n : Width} {a : Word} {f : Word → Word} {s t : State}
    (h : loadInto r n a f s = .next t) :
    ∃ v, memRead s.mem a n = .ok v ∧ s.pc.toNat + 4 ≤ 0xFFFFFF ∧ t = (s.setReg r (f v)).setPc (s.pc + 4) := by
  obtain ⟨v, hv, h⟩ := withRead_next h
  exact ⟨v, hv, setRegAdvance_next h⟩

theorem storeAt_next {n : Width} {a v : Word} {s t : State} (h : storeAt n a v s = .next t) :
    ∃ m, memWrite s.mem a n v = .ok m ∧ s.pc.toNat + 4 ≤ 0xFFFFFF ∧ t = ({ s with mem := m } : State).setPc (s.pc + 4) := by
  obtain ⟨m, hm, h⟩ := withWrite_next h
  exact ⟨m, hm, advance_next h⟩

theorem modifyAt_next {n : Width} {a : Word} {f : Word → Word} {s t : State} (h : modifyAt n a f s = .next t) :
    ∃ v m, memRead s.mem a n = .ok v ∧ memWrite s.mem a n (f v) = .ok m ∧ s.pc.toNat + 4 ≤ 0xFFFFFF ∧
      t = ({ s with mem := m } : State).setPc (s.pc + 4) := by
  obtain ⟨v, hv, h⟩ := withRead_next h
  obtain ⟨m, hm, h⟩ := storeAt_next h
  exact ⟨v, m, hv, hm, h⟩

theorem autoIncrementLoad_next {n : Width} {x y : Reg} {s t : State} (h : autoIncrementLoad n x y s = .next t) :
    ∃ v, memRead s.mem (s.reg x) n = .ok v ∧ s.pc.toNat + 2 ≤ 0xFFFFFF ∧
      t = ((s.setReg y v).setReg x ((s.setReg y v).reg x + BitVec.ofNat 24 n.bytes)).setPc (s.pc + 2) := by
  obtain ⟨v, hv, h⟩ := withRead_next h
  exact ⟨v, hv, setRegAdvance_next (s := s.setReg y v) h⟩

theorem jumpKeeping_next {cfg : Configuration} {f : Flag} {want : Bool} {a : Word} {s t : State} (h : jumpKeeping f want a s cfg = .next t) :
    (s.flag f cfg = want ∧ t = s.setPc a) ∨
      (s.flag f cfg ≠ want ∧ s.pc.toNat + 4 ≤ 0xFFFFFF ∧ t = s.setPc (s.pc + 4)) := by
  unfold jumpKeeping at h
  split at h
  · next hf => cases h; exact .inl ⟨hf, rfl⟩
  · next hf => exact .inr ⟨hf, advance_next h⟩

theorem jumpClearing_next {cfg : Configuration} {f : Flag} {a : Word} {s t : State} (h : jumpClearing f a s cfg = .next t) :
    (s.flag f cfg = true ∧ t = (s.setFlag f false cfg).setPc a) ∨
      (s.flag f cfg = false ∧ s.pc.toNat + 4 ≤ 0xFFFFFF ∧ t = s.setPc (s.pc + 4)) := by
  unfold jumpClearing at h
  split at h
  · next hf => cases h; exact .inl ⟨hf, rfl⟩
  · next hf => exact .inr ⟨by simpa using hf, advance_next h⟩

/-! The stack. -/

/-- The memory after a slot is written at `t`, byte by byte (R57, R58). -/
theorem writeSlot_read (m : Memory) (t : Nat) (v : Word) (a : Nat) :
    (writeSlot m t v).read a =
      if a = t - 2 then byteOf v 2 else if a = t - 1 then byteOf v 1 else if a = t then byteOf v 0 else m.read a := by
  simp [writeSlot, slotAddress, Config.stackSlotLayout]

theorem writeSlot_wf {cfg : Configuration} {m : Memory} {t : Nat} {v : Word} (hw : m.wf = true) (ht : t < 0x1000000) :
    (writeSlot m t v cfg).wf = true := by
  have hs : ∀ k < 3, slotAddress cfg.stackSlotLayout t k < Config.memSize := by
    intro k hk
    simp only [slotAddress, memSize_eq]
    split <;> omega
  exact Memory.wf_write _ _ _ (Memory.wf_write _ _ _ (Memory.wf_write _ _ _ hw (hs 0 (by omega))) (hs 1 (by omega)))
    (hs 2 (by omega))

/-- What a completed push did (R58). -/
theorem stackPush_ok {cfg : Configuration} {v : Word} {s t : State} (h : stackPush v s cfg = .ok t) :
    3 ≤ (s.reg .sp).toNat ∧
      t = ({ s with mem := writeSlot s.mem (s.reg .sp).toNat v cfg } : State).setReg .sp (s.reg .sp - 3) := by
  unfold stackPush at h
  split at h
  · cases h
  · cases h
    exact ⟨by omega, rfl⟩

theorem stackPush_of_le {cfg : Configuration} {v : Word} {s : State} (h : 3 ≤ (s.reg .sp).toNat) :
    stackPush v s cfg = .ok (({ s with mem := writeSlot s.mem (s.reg .sp).toNat v cfg } : State).setReg .sp (s.reg .sp - 3)) := by
  unfold stackPush
  rw [if_neg (by omega)]

theorem stackPush_of_lt {cfg : Configuration} {v : Word} {s : State} (h : (s.reg .sp).toNat < 3) :
    stackPush v s cfg = .error (.stackWrap (s.reg .sp)) := by
  unfold stackPush
  rw [if_pos h]

/-- What a completed pop did (R59). -/
theorem stackPop_ok {cfg : Configuration} {v : Word} {s t : State} (h : stackPop s cfg = .ok (v, t)) :
    (s.reg .sp).toNat ≤ 0xFFFFFC ∧ v = readSlot s.mem ((s.reg .sp).toNat + 3) cfg ∧ t = s.setReg .sp (s.reg .sp + 3) := by
  unfold stackPop at h
  split at h
  · cases h
  · cases h
    exact ⟨by omega, rfl, rfl⟩

theorem stackPop_of_le {cfg : Configuration} {s : State} (h : (s.reg .sp).toNat ≤ 0xFFFFFC) :
    stackPop s cfg = .ok (readSlot s.mem ((s.reg .sp).toNat + 3) cfg, s.setReg .sp (s.reg .sp + 3)) := by
  unfold stackPop
  rw [if_neg (by omega)]

theorem stackPop_of_gt {cfg : Configuration} {s : State} (h : 0xFFFFFC < (s.reg .sp).toNat) :
    stackPop s cfg = .error (.stackWrap (s.reg .sp)) := by
  unfold stackPop
  rw [if_pos h]

/-- The value in a slot by its bytes (R59). -/
theorem readSlot_eq (m : Memory) (t : Nat) : readSlot m t = joinBytes (m.read t) (m.read (t - 1)) (m.read (t - 2)) := rfl

/-- What a completed push-and-continue did. -/
theorem withPush_next {cfg : Configuration} {v : Word} {s t : State} {k : State → Result} (h : withPush v s k cfg = .next t) :
    ∃ u, stackPush v s cfg = .ok u ∧ k u = .next t := by
  unfold withPush at h
  split at h
  · next u hu => exact ⟨u, hu, h⟩
  · cases h

/-- What a completed pop-and-continue did. -/
theorem withPop_next {cfg : Configuration} {s t : State} {k : Word → State → Result} (h : withPop s k cfg = .next t) :
    ∃ v u, stackPop s cfg = .ok (v, u) ∧ k v u = .next t := by
  unfold withPop at h
  split at h
  · next v u hu => exact ⟨v, u, hu, h⟩
  · cases h

theorem withPush_of_ok {cfg : Configuration} {v : Word} {s u : State} {k : State → Result} (h : stackPush v s cfg = .ok u) :
    withPush v s k cfg = k u := by
  simp [withPush, h]

theorem withPush_of_error {cfg : Configuration} {v : Word} {s : State} {f : Fault} {k : State → Result} (h : stackPush v s cfg = .error f) :
    withPush v s k cfg = .fault f := by
  simp [withPush, h]

theorem withPop_of_ok {cfg : Configuration} {s u : State} {v : Word} {k : Word → State → Result} (h : stackPop s cfg = .ok (v, u)) :
    withPop s k cfg = k v u := by
  simp [withPop, h]

theorem withPop_of_error {cfg : Configuration} {s : State} {f : Fault} {k : Word → State → Result} (h : stackPop s cfg = .error f) :
    withPop s k cfg = .fault f := by
  simp [withPop, h]

/-! The vectored entry. -/

/-- The entry of code 0x80 + n lies at 0xFF0000 + 3n, inside the memory (R218). -/
theorem vectorAddress_toNat (code : Byte) (h : Config.firstVectoredCode ≤ code) :
    (vectorAddress code).toNat = 0xFF0000 + 3 * (code.toNat - 0x80) := by
  revert code
  decide

/-- A vectored entry completes, with pc at the table entry and nothing else changed (R217). -/
theorem takeVector_eq (code : Byte) (s : State) (h : Config.firstVectoredCode ≤ code) :
    takeVector code s = .next (s.setPc (joinBytes (s.mem.read (vectorAddress code).toNat)
      (s.mem.read ((vectorAddress code).toNat + 1)) (s.mem.read ((vectorAddress code).toNat + 2)))) := by
  have ha := vectorAddress_toNat code h
  have hc := code.isLt
  exact withRead_of_ok (memRead_triple (by omega))

/-- What a completed vectored entry did. -/
theorem takeVector_next {code : Byte} {s t : State} (h : takeVector code s = .next t) : ∃ v, t = s.setPc v := by
  obtain ⟨v, _, h⟩ := withRead_next h
  cases h
  exact ⟨v, rfl⟩

end Sys2Proof.Machine
end

