-- ==== Sys2Proof/Laws/Step.lean ====
section
/-! SUPPORT. What a step does, by the run state and by what the fetched bytes decode to. -/

namespace Sys2Proof.Machine

theorem stepIn_of_running {cfg : Configuration} {s : State} (h : s.run = .running) :
    stepIn cfg s = fetchExecute s cfg := by
  simp only [stepIn, h]

theorem step_of_running {s : State} (h : s.run = .running) : step s = fetchExecute s := stepIn_of_running h

/-- The core's step is the step at the default configuration (R8). -/
theorem stepIn_defaults (s : State) : stepIn Config.defaults s = step s := rfl

/-- A halted core stays as it is, under every configuration (R111). -/
theorem stepIn_of_halted {cfg : Configuration} {s : State} (h : s.run ≠ .running) : stepIn cfg s = .next s := by
  unfold stepIn
  split
  · rfl
  · next hr => exact absurd hr h

/-- The dispatch table is the instructions at the default configuration (R8, R96). -/
theorem execIn_defaults (i : Instr) (s : State) : execIn Config.defaults i s = exec i s := by
  cases i <;> rfl

/-- The fetched bytes begin with the byte at pc (R26). -/
theorem fetchBytes_cons (m : Memory) (pc : Word) : ∃ tail, fetchBytes m pc = m.read pc.toNat :: tail := by
  have hpc := pc.isLt
  have h0 : pc.toNat + 0 < Config.memSize := by
    simp
    omega
  simp only [fetchBytes, List.range_succ_eq_map, List.filter_cons_of_pos (p := fun k => decide (pc.toNat + k < Config.memSize)) (decide_eq_true h0), List.map_cons]
  exact ⟨_, rfl⟩

/-- Away from the top of memory the fetch gives the four bytes from pc (R29). -/
theorem fetchBytes_four {m : Memory} {pc : Word} (h : pc.toNat + 3 < 0x1000000) :
    fetchBytes m pc =
      [m.read pc.toNat, m.read (pc.toNat + 1), m.read (pc.toNat + 2), m.read (pc.toNat + 3)] := by
  have h0 : pc.toNat < 0x1000000 := by omega
  have h1 : pc.toNat + 1 < 0x1000000 := by omega
  have h2 : pc.toNat + 2 < 0x1000000 := by omega
  simp [fetchBytes, List.range_succ, h, h0, h1, h2]

/-- Every next step of a running core runs one decoded instruction or halts on an illegal opcode (R110). -/
theorem fetchExecute_next {cfg : Configuration} {s t : State} (h : fetchExecute s cfg = .next t) :
    (∃ i rest, decode (fetchBytes s.mem s.pc) cfg = .ok (i, rest) ∧ execIn cfg i s = .next t) ∨
      (∃ op, decode (fetchBytes s.mem s.pc) cfg = .error (.illegalOpcode op) ∧
        t = { s with run := .halted 1 (.illegalInstruction [op] s.pc) }) := by
  unfold fetchExecute at h
  split at h
  · next i rest hd => exact .inl ⟨i, rest, hd, h⟩
  · next op hd =>
    cases h
    exact .inr ⟨op, hd, rfl⟩
  · cases h

/-- What a completed step did, under any configuration: nothing to a halted core, else one instruction or the
illegal-instruction halt (R110, R111). -/
theorem stepIn_next {cfg : Configuration} {s t : State} (h : stepIn cfg s = .next t) :
    t = s ∨ (s.run = .running ∧ ∃ i, execIn cfg i s = .next t) ∨
      (s.run = .running ∧ ∃ op, t = { s with run := .halted 1 (.illegalInstruction [op] s.pc) }) := by
  unfold stepIn at h
  split at h
  · cases h
    exact .inl rfl
  · next hr =>
    obtain ⟨i, _, _, hi⟩ | ⟨op, _, ht⟩ := fetchExecute_next h
    · exact .inr (.inl ⟨hr, i, hi⟩)
    · exact .inr (.inr ⟨hr, op, ht⟩)

/-- The same of the core's step. -/
theorem step_next {s t : State} (h : step s = .next t) :
    t = s ∨ (s.run = .running ∧ ∃ i, exec i s = .next t) ∨
      (s.run = .running ∧ ∃ op, t = { s with run := .halted 1 (.illegalInstruction [op] s.pc) }) := by
  obtain h | ⟨hr, i, hi⟩ | h := stepIn_next h
  · exact .inl h
  · exact .inr (.inl ⟨hr, i, execIn_defaults i s ▸ hi⟩)
  · exact .inr (.inr h)

end Sys2Proof.Machine
end

