-- ==== Sys2Proof/Laws/Safety.lean ====
section
/-! SUPPORT. How the updates of the state stand to the claims' terms: which updates change only what, and which keep the
invariant. -/

namespace Sys2Proof.Machine

theorem onlyChanges_setPc (s : State) (p : Word) : OnlyChanges s (s.setPc p) [] [] [] :=
  ⟨fun _ _ => rfl, fun _ _ => rfl, rfl, fun _ _ => rfl, rfl, rfl, rfl⟩

theorem onlyChanges_setReg_setPc (s : State) (r : Reg) (v p : Word) :
    OnlyChanges s ((s.setReg r v).setPc p) [r] [] [] :=
  ⟨fun q hq => by simp at hq; simp [hq], fun _ _ => rfl, rfl, fun _ _ => rfl, rfl, rfl, rfl⟩

theorem onlyChanges_setFlag_setPc (s : State) (f : Flag) (b : Bool) (p : Word) :
    OnlyChanges s ((s.setFlag f b).setPc p) [] [f] [] :=
  ⟨fun _ _ => rfl, fun g hg => by simp at hg; simp [hg], by simp, fun _ _ => rfl, rfl, rfl, rfl⟩

/-- A memory that reads as before outside `bytes`. -/
theorem onlyChanges_mem_setPc (s : State) (m : Memory) (p : Word) (bytes : List Nat)
    (h : ∀ a, a ∉ bytes → m.read a = s.mem.read a) :
    OnlyChanges s (({ s with mem := m } : State).setPc p) [] [] bytes :=
  ⟨fun _ _ => rfl, fun _ _ => rfl, rfl, h, rfl, rfl, rfl⟩

/-- A push changes SP and the three bytes of the slot (R58). -/
theorem onlyChanges_push (s : State) (v : Word) :
    OnlyChanges s (({ s with mem := writeSlot s.mem (s.reg .sp).toNat v } : State).setReg .sp (s.reg .sp - 3)) [.sp] []
      [(s.reg .sp).toNat, (s.reg .sp).toNat - 1, (s.reg .sp).toNat - 2] :=
  ⟨fun q hq => by simp at hq; simp [hq], fun _ _ => rfl, rfl,
    fun a ha => by
      simp only [List.mem_cons, List.not_mem_nil, or_false, not_or] at ha
      simp only [State.setReg_mem, writeSlot_read]
      rw [if_neg ha.2.2, if_neg ha.2.1, if_neg ha.1],
    rfl, rfl, rfl⟩

theorem State.Inv.setPc {s : State} (h : s.Inv) (p : Word) : (s.setPc p).Inv := ⟨h.memory, h.reserved, h.carry, h.halt⟩

theorem State.Inv.setReg {s : State} (h : s.Inv) (r : Reg) (v : Word) : (s.setReg r v).Inv :=
  ⟨h.memory, h.reserved, h.carry, h.halt⟩

theorem State.Inv.record {s : State} (h : s.Inv) (e : HostEvent) : (s.record e).Inv :=
  ⟨h.memory, h.reserved, h.carry, h.halt⟩

theorem State.Inv.drawn {s : State} (h : s.Inv) : s.drawn.Inv := ⟨h.memory, h.reserved, h.carry, h.halt⟩

theorem State.Inv.mem {s : State} (h : s.Inv) {m : Memory} (hm : m.wf = true) : ({ s with mem := m } : State).Inv :=
  ⟨hm, h.reserved, h.carry, h.halt⟩

theorem State.Inv.run {s : State} (h : s.Inv) {x : RunState} (hx : x.coherent = true) :
    ({ s with run := x } : State).Inv :=
  ⟨h.memory, h.reserved, h.carry, hx⟩

/-- Writing any flag but setting C keeps the invariant (R36, R37). -/
theorem State.Inv.setFlag {s : State} (h : s.Inv) (f : Flag) (b : Bool) (hf : f = .c → b = false) :
    (s.setFlag f b).Inv :=
  ⟨h.memory, by simpa using h.reserved, by by_cases hc : f = .c <;> simp_all [h.carry, eq_comm], h.halt⟩

theorem State.Inv.resetAction {s : State} (h : s.Inv) : (resetAction s).Inv := ⟨h.memory, by simp, by simp, rfl⟩

theorem State.Inv.push {s t : State} {v : Word} (h : s.Inv) (hp : stackPush v s = .ok t) : t.Inv := by
  obtain ⟨_, rfl⟩ := stackPush_ok hp
  exact (h.mem (writeSlot_wf h.memory (s.reg .sp).isLt)).setReg _ _

theorem State.Inv.pop {s t : State} {v : Word} (h : s.Inv) (hp : stackPop s = .ok (v, t)) : t.Inv := by
  obtain ⟨_, _, rfl⟩ := stackPop_ok hp
  exact h.setReg _ _

theorem State.Inv.advance {s t : State} {w : Nat} (h : s.Inv) (ha : advance w s = .next t) : t.Inv := by
  obtain ⟨_, rfl⟩ := advance_next ha
  exact h.setPc _

end Sys2Proof.Machine
end

