-- ==== Sys2Proof/Laws/Effects.lean ====
section
/-! SUPPORT. Said once: everything an instruction can do when it completes. An invariant or a whole-machine rule is then a
short case analysis over these few shapes instead of one over all the instructions. -/

namespace Sys2Proof.Machine

/-- The shapes of a completed `int code` (R140). -/
inductive IntEffect (s : State) (code : Byte) : State → Prop where
  | off (h : s.flag .i = false) (hpc : s.pc.toNat + 2 ≤ 0xFFFFFF) : IntEffect s code (s.setPc (s.pc + 2))
  | vectored (h : s.flag .i = true) (target : Word) : IntEffect s code (s.setPc target)
  | illegal (h : s.flag .i = true) (hm : Config.hostServiceMap code = none) :
      IntEffect s code { s with run := .halted 1 (.illegalHwInterrupt code s.pc) }
  | exited {v : Word} {u : State} (h : Runs code .exit s) (hp : stackPop s = .ok (v, u)) :
      IntEffect s code { u with run := .halted v (.exit v) }
  | blocked (h : Runs code .consoleRead s) : IntEffect s code s
  | consoleRead {b : Byte} {u : State} (h : Runs code .consoleRead s) (hp : stackPush (b.setWidth 24) s = .ok u)
      (target : Word) : IntEffect s code (((u.record (.consoleIn b)).drawn).setPc target)
  | consoleWrite {v : Word} {u : State} (h : Runs code .consoleWrite s) (hp : stackPop s = .ok (v, u)) (target : Word) :
      IntEffect s code ((u.record (.consoleOut (byteOf v 0))).setPc target)
  | reset (h : Runs code .reset s) : IntEffect s code (resetAction s)
  | event (h : s.flag .i = true) (e : HostEvent) (target : Word) : IntEffect s code ((s.record e).setPc target)
  | draw (h : s.flag .i = true) (r : Reg) (v : Word) (e : HostEvent) (target : Word) :
      IntEffect s code ((((s.setReg r v).record e).drawn).setPc target)

/-- The shapes of a completed instruction. -/
inductive Effect (s : State) : Instr → State → Prop where
  | halt {i : Instr} (status : Word) (reason : HaltReason) (hi : i.opcode = .hlt ∨ i.opcode = .escapeE)
      (hc : (RunState.halted status reason).coherent = true) : Effect s i { s with run := .halted status reason }
  | register {i : Instr} (r : Reg) (v : Word) (hw : s.pc.toNat + i.width ≤ 0xFFFFFF)
      (hi : i.opcode ∈ [Opcode.incR, .decR, .addRxRy, .movRxRy, .movRImm, .addRImm, .addRByteA, .addRWordA, .movRByteA,
        .movRWordA]) :
      Effect s i ((s.setReg r v).setPc (s.pc + BitVec.ofNat 24 i.width))
  | autoIncrement {i : Instr} (x y : Reg) (v w : Word) (hw : s.pc.toNat + i.width ≤ 0xFFFFFF)
      (hi : i.opcode ∈ [Opcode.lodbRxRy, .lodwRxRy, .lodhRxRy]) :
      Effect s i (((s.setReg y v).setReg x w).setPc (s.pc + BitVec.ofNat 24 i.width))
  | compare {i : Instr} (v w : Word) (hw : s.pc.toNat + i.width ≤ 0xFFFFFF) (hi : i.opcode = .cmpRImm) :
      Effect s i ((s.setCompareFlags v w).setPc (s.pc + BitVec.ofNat 24 i.width))
  | store {i : Instr} {a v : Word} {n : Width} {m : Memory} (hm : memWrite s.mem a n v = .ok m)
      (hw : s.pc.toNat + i.width ≤ 0xFFFFFF)
      (hi : i.opcode ∈ [Opcode.incByteA, .decByteA, .incWordA, .decWordA, .movByteAR, .movWordAR]) :
      Effect s i (({ s with mem := m } : State).setPc (s.pc + BitVec.ofNat 24 i.width))
  | push {i : Instr} {v : Word} {u : State} (hp : stackPush v s = .ok u) (hw : s.pc.toNat + i.width ≤ 0xFFFFFF)
      (hi : i.opcode ∈ [Opcode.pushImm, .pushR]) : Effect s i (u.setPc (s.pc + BitVec.ofNat 24 i.width))
  | jump {i : Instr} (target : Word)
      (hi : i.opcode ∈ [Opcode.jmpT, .jeT, .jneT, .jcT, .jncT, .jsT, .jnT, .jiT, .jniT]) : Effect s i (s.setPc target)
  | jumpClearing {i : Instr} (target : Word) (f : Flag) (hf : s.flag f = true)
      (hi : (i.opcode = .jeT ∧ f = .z) ∨ (i.opcode = .jcT ∧ f = .c) ∨ (i.opcode = .jnT ∧ f = .n) ∨
        (i.opcode = .jiT ∧ f = .i)) : Effect s i ((s.setFlag f false).setPc target)
  | int {code : Byte} {t : State} (h : IntEffect s code t) : Effect s (.intCode code) t

/-- A host service runs when I is set and the code below 0x80 names it (R140). -/
theorem exec_int_of_runs {code : Byte} {svc : HostService} {s : State} (h : Runs code svc s) :
    exec (.intCode code) s = hostService svc s := by
  obtain ⟨hi, hc, hm⟩ := h
  have hlt : ¬ Config.firstVectoredCode ≤ code := fun hle => absurd hc (BitVec.not_lt.mpr hle)
  show execIntCode code s = _
  rw [execIntCode, if_pos hi, if_neg hlt, defaults_hostServiceMap, hm]

/-- Every completed `int` has one of the shapes. -/
theorem execIntCode_effect {code : Byte} {s t : State} (h : execIntCode code s = .next t) : IntEffect s code t := by
  unfold execIntCode at h
  split at h
  · next hi =>
    split at h
    · obtain ⟨v, rfl⟩ := takeVector_next h
      exact .vectored hi v
    · next hc =>
      split at h
      · next svc hs =>
        have hr : Runs code svc s := ⟨hi, BitVec.not_le.mp hc, hs⟩
        cases svc
        case exit =>
          obtain ⟨v, u, hp, h⟩ := withPop_next h
          cases h
          exact .exited hr hp
        case consoleRead =>
          simp only [hostService, serviceConsoleRead] at h
          split at h
          · cases h
            exact .blocked hr
          · obtain ⟨u, hp, h⟩ := withPush_next h
            obtain ⟨_, rfl⟩ := advance_next h
            exact .consoleRead hr hp _
        case consoleWrite =>
          obtain ⟨v, u, hp, h⟩ := withPop_next h
          obtain ⟨_, rfl⟩ := advance_next h
          exact .consoleWrite hr hp _
        case reset =>
          cases h
          exact .reset hr
        case videoFlush | delay =>
          obtain ⟨_, rfl⟩ := advance_next h
          exact .event hi _ _
        case random | clock =>
          obtain ⟨_, rfl⟩ := advance_next h
          exact .draw hi _ _ _ _
      · next hm =>
        cases h
        exact .illegal hi hm
  · next hi =>
    obtain ⟨hpc, rfl⟩ := advance_next h
    exact .off (by simpa using hi) hpc

/-- Every completed instruction has one of the shapes. -/
theorem exec_effect {i : Instr} {s t : State} (h : exec i s = .next t) : Effect s i t := by
  cases i
  case hlt =>
    cases h
    exact .halt _ _ (.inl rfl) rfl
  case trap => cases h
  case escapeE e =>
    cases h
    exact .halt _ _ (.inr rfl) rfl
  case intCode => exact .int (execIntCode_effect h)
  case incR | decR | addRxRy | movRxRy | movRImm | addRImm =>
    obtain ⟨hw, rfl⟩ := setRegAdvance_next h
    exact .register _ _ hw (by simp [Instr.opcode])
  case addRByteA | addRWordA | movRByteA | movRWordA =>
    obtain ⟨_, _, hw, rfl⟩ := loadInto_next h
    exact .register _ _ hw (by simp [Instr.opcode])
  case lodbRxRy | lodwRxRy | lodhRxRy =>
    obtain ⟨_, _, hw, rfl⟩ := autoIncrementLoad_next h
    exact .autoIncrement _ _ _ _ hw (by simp [Instr.opcode])
  case cmpRImm =>
    obtain ⟨hw, rfl⟩ := advance_next h
    exact .compare _ _ hw rfl
  case incByteA | decByteA | incWordA | decWordA =>
    obtain ⟨_, _, _, hm, hw, rfl⟩ := modifyAt_next h
    exact .store hm hw (by simp [Instr.opcode])
  case movByteAR | movWordAR =>
    obtain ⟨_, hm, hw, rfl⟩ := storeAt_next h
    exact .store hm hw (by simp [Instr.opcode])
  case pushImm | pushR =>
    obtain ⟨u, hp, h'⟩ := withPush_next h
    obtain ⟨hw, rfl⟩ := advance_next h'
    have hpc : u.pc = s.pc := by rw [(stackPush_ok hp).2]; rfl
    rw [hpc] at hw ⊢
    exact .push hp hw (by simp [Instr.opcode])
  case jmpT =>
    cases h
    exact .jump _ (by simp [Instr.opcode])
  case jeT | jcT | jnT | jiT =>
    obtain ⟨hf, rfl⟩ | ⟨_, _, rfl⟩ := jumpClearing_next h
    · exact .jumpClearing _ _ hf (by simp [Instr.opcode])
    · exact .jump _ (by simp [Instr.opcode])
  case jneT | jncT | jsT | jniT =>
    obtain ⟨_, rfl⟩ | ⟨_, _, rfl⟩ := jumpKeeping_next h <;> exact .jump _ (by simp [Instr.opcode])

/-! Runs of the host's core. -/

theorem core_run_zero (s : State) : Sys2Proof.core.run 0 s = .next s := rfl

theorem core_run_of_next {k : Nat} {s t : State} (h : step s = .next t) :
    Sys2Proof.core.run (k + 1) s = Sys2Proof.core.run k t := by
  have h' : Sys2Proof.core.step s = .next t := h
  simp only [Host.Core.run, h']

/-- A longer run that completes began with a step that did. -/
theorem core_run_succ_next {k : Nat} {s t : State} (h : Sys2Proof.core.run (k + 1) s = .next t) :
    ∃ u, step s = .next u ∧ Sys2Proof.core.run k u = .next t := by
  simp only [Host.Core.run] at h
  split at h
  · exact ⟨_, ‹_›, h⟩
  · cases h
  · cases h

end Sys2Proof.Machine
end

