-- ==== Sys2Proof/Laws/HostControl.lean ====
section
/-! SUPPORT. Said once: what loading an image does (R266 step 2). -/

namespace Sys2Proof.Machine

/-- Cells are written first to last. -/
theorem loadImage_append_cons (image₁ image₂ : List (Word × Byte)) (a : Word) (b : Byte) (s : State) :
    loadImage (image₁ ++ (a, b) :: image₂) s =
      loadImage image₂
        { loadImage image₁ s with mem := (loadImage image₁ s).mem.write a.toNat b } := by
  simp [loadImage, List.foldl_append]

/-- An image leaves an address alone that it has no cell for. -/
theorem loadImage_read_of_no_cell (image : List (Word × Byte)) (s : State) (a : Word)
    (h : ∀ cell ∈ image, cell.1 ≠ a) : (loadImage image s).mem.read a.toNat = s.mem.read a.toNat := by
  induction image generalizing s with
  | nil => rfl
  | cons c cs ih =>
    rw [show loadImage (c :: cs) s = loadImage cs { s with mem := s.mem.write c.1.toNat c.2 } from rfl,
      ih _ fun cell hc => h cell (by simp [hc])]
    simp only [Memory.read_write]
    rw [if_neg fun hh => h c (by simp) (BitVec.eq_of_toNat_eq hh).symm]

/-- Loading changes memory only. -/
theorem loadImage_mem_only (image : List (Word × Byte)) (s : State) : { loadImage image s with mem := s.mem } = s := by
  induction image generalizing s with
  | nil => rfl
  | cons c cs ih =>
    have h := congrArg (fun x : State => ({ x with mem := s.mem } : State)) (ih { s with mem := s.mem.write c.1.toNat c.2 })
    exact h

/-- Loading keeps the canonical form. -/
theorem loadImage_wf (image : List (Word × Byte)) (s : State) (h : s.mem.wf = true) :
    (loadImage image s).mem.wf = true := by
  induction image generalizing s with
  | nil => exact h
  | cons c cs ih => exact ih _ (Memory.wf_write _ _ _ h c.1.isLt)

end Sys2Proof.Machine
end

