-- ==== Sys2Proof/Laws/PerInstr.lean ====
section
/-! SUPPORT. Two families of facts about instructions as syntax, one lemma per constructor: the length of an encoding, and
that the default opcode map encodes every instruction. -/

namespace Sys2Proof.Laws.EncodingLength

/-- The encoding has the width of the instruction's format (R89). -/
def Statement (i : Sys2Proof.Instr) : Prop := (Sys2Proof.encode i).length = i.width

theorem hlt : Statement .hlt := rfl
theorem trap : Statement .trap := rfl
theorem incR (r : Sys2Proof.Reg) : Statement (.incR r) := rfl
theorem decR (r : Sys2Proof.Reg) : Statement (.decR r) := rfl
theorem incByteA (a : Sys2Proof.Word) : Statement (.incByteA a) := rfl
theorem decByteA (a : Sys2Proof.Word) : Statement (.decByteA a) := rfl
theorem incWordA (a : Sys2Proof.Word) : Statement (.incWordA a) := rfl
theorem decWordA (a : Sys2Proof.Word) : Statement (.decWordA a) := rfl
theorem intCode (code : Sys2Proof.Byte) : Statement (.intCode code) := rfl
theorem addRxRy (x y : Sys2Proof.Reg) : Statement (.addRxRy x y) := rfl
theorem movRxRy (x y : Sys2Proof.Reg) : Statement (.movRxRy x y) := rfl
theorem lodbRxRy (x y : Sys2Proof.Reg) : Statement (.lodbRxRy x y) := rfl
theorem lodwRxRy (x y : Sys2Proof.Reg) : Statement (.lodwRxRy x y) := rfl
theorem lodhRxRy (x y : Sys2Proof.Reg) : Statement (.lodhRxRy x y) := rfl
theorem escapeE (e : Sys2Proof.Byte) : Statement (.escapeE e) := rfl
theorem jmpT (t : Sys2Proof.Word) : Statement (.jmpT t) := rfl
theorem jeT (t : Sys2Proof.Word) : Statement (.jeT t) := rfl
theorem jneT (t : Sys2Proof.Word) : Statement (.jneT t) := rfl
theorem jcT (t : Sys2Proof.Word) : Statement (.jcT t) := rfl
theorem jncT (t : Sys2Proof.Word) : Statement (.jncT t) := rfl
theorem jsT (t : Sys2Proof.Word) : Statement (.jsT t) := rfl
theorem jnT (t : Sys2Proof.Word) : Statement (.jnT t) := rfl
theorem jiT (t : Sys2Proof.Word) : Statement (.jiT t) := rfl
theorem jniT (t : Sys2Proof.Word) : Statement (.jniT t) := rfl
theorem pushImm (imm : Sys2Proof.Word) : Statement (.pushImm imm) := rfl
theorem pushR (r : Sys2Proof.Reg) : Statement (.pushR r) := rfl
theorem movRImm (r : Sys2Proof.Reg) (imm : Sys2Proof.Word) : Statement (.movRImm r imm) := rfl
theorem movRByteA (r : Sys2Proof.Reg) (a : Sys2Proof.Word) : Statement (.movRByteA r a) := rfl
theorem movRWordA (r : Sys2Proof.Reg) (a : Sys2Proof.Word) : Statement (.movRWordA r a) := rfl
theorem movByteAR (a : Sys2Proof.Word) (r : Sys2Proof.Reg) : Statement (.movByteAR a r) := rfl
theorem movWordAR (a : Sys2Proof.Word) (r : Sys2Proof.Reg) : Statement (.movWordAR a r) := rfl
theorem addRImm (r : Sys2Proof.Reg) (imm : Sys2Proof.Word) : Statement (.addRImm r imm) := rfl
theorem addRByteA (r : Sys2Proof.Reg) (a : Sys2Proof.Word) : Statement (.addRByteA r a) := rfl
theorem addRWordA (r : Sys2Proof.Reg) (a : Sys2Proof.Word) : Statement (.addRWordA r a) := rfl
theorem cmpRImm (r : Sys2Proof.Reg) (imm : Sys2Proof.Word) : Statement (.cmpRImm r imm) := rfl

end Sys2Proof.Laws.EncodingLength

namespace Sys2Proof.Laws.InDefaultMap

/-- The default opcode map encodes the instruction (R90). -/
def Statement (i : Sys2Proof.Instr) : Prop := i.wellFormed = true

theorem hlt : Statement .hlt := rfl
theorem trap : Statement .trap := rfl
theorem incR (r : Sys2Proof.Reg) : Statement (.incR r) := rfl
theorem decR (r : Sys2Proof.Reg) : Statement (.decR r) := rfl
theorem incByteA (a : Sys2Proof.Word) : Statement (.incByteA a) := rfl
theorem decByteA (a : Sys2Proof.Word) : Statement (.decByteA a) := rfl
theorem incWordA (a : Sys2Proof.Word) : Statement (.incWordA a) := rfl
theorem decWordA (a : Sys2Proof.Word) : Statement (.decWordA a) := rfl
theorem intCode (code : Sys2Proof.Byte) : Statement (.intCode code) := rfl
theorem addRxRy (x y : Sys2Proof.Reg) : Statement (.addRxRy x y) := rfl
theorem movRxRy (x y : Sys2Proof.Reg) : Statement (.movRxRy x y) := rfl
theorem lodbRxRy (x y : Sys2Proof.Reg) : Statement (.lodbRxRy x y) := rfl
theorem lodwRxRy (x y : Sys2Proof.Reg) : Statement (.lodwRxRy x y) := rfl
theorem lodhRxRy (x y : Sys2Proof.Reg) : Statement (.lodhRxRy x y) := rfl
theorem escapeE (e : Sys2Proof.Byte) : Statement (.escapeE e) := rfl
theorem jmpT (t : Sys2Proof.Word) : Statement (.jmpT t) := rfl
theorem jeT (t : Sys2Proof.Word) : Statement (.jeT t) := rfl
theorem jneT (t : Sys2Proof.Word) : Statement (.jneT t) := rfl
theorem jcT (t : Sys2Proof.Word) : Statement (.jcT t) := rfl
theorem jncT (t : Sys2Proof.Word) : Statement (.jncT t) := rfl
theorem jsT (t : Sys2Proof.Word) : Statement (.jsT t) := rfl
theorem jnT (t : Sys2Proof.Word) : Statement (.jnT t) := rfl
theorem jiT (t : Sys2Proof.Word) : Statement (.jiT t) := rfl
theorem jniT (t : Sys2Proof.Word) : Statement (.jniT t) := rfl
theorem pushImm (imm : Sys2Proof.Word) : Statement (.pushImm imm) := rfl
theorem pushR (r : Sys2Proof.Reg) : Statement (.pushR r) := rfl
theorem movRImm (r : Sys2Proof.Reg) (imm : Sys2Proof.Word) : Statement (.movRImm r imm) := rfl
theorem movRByteA (r : Sys2Proof.Reg) (a : Sys2Proof.Word) : Statement (.movRByteA r a) := rfl
theorem movRWordA (r : Sys2Proof.Reg) (a : Sys2Proof.Word) : Statement (.movRWordA r a) := rfl
theorem movByteAR (a : Sys2Proof.Word) (r : Sys2Proof.Reg) : Statement (.movByteAR a r) := rfl
theorem movWordAR (a : Sys2Proof.Word) (r : Sys2Proof.Reg) : Statement (.movWordAR a r) := rfl
theorem addRImm (r : Sys2Proof.Reg) (imm : Sys2Proof.Word) : Statement (.addRImm r imm) := rfl
theorem addRByteA (r : Sys2Proof.Reg) (a : Sys2Proof.Word) : Statement (.addRByteA r a) := rfl
theorem addRWordA (r : Sys2Proof.Reg) (a : Sys2Proof.Word) : Statement (.addRWordA r a) := rfl
theorem cmpRImm (r : Sys2Proof.Reg) (imm : Sys2Proof.Word) : Statement (.cmpRImm r imm) := rfl

end Sys2Proof.Laws.InDefaultMap
end

