-- ==== Sys2Proof/Tests/Slice0.lean ====
section
/-! SUPPORT. The model's own tests. Expected results come from spec/: the opcode bytes from 30_encoding.md's tables, the
effects from the named vectors of 95_test_vectors.md. The `witness_` theorems show, for each obligation with hypotheses,
a concrete state and operands that meet them, at the boundaries of their ranges. -/

namespace Sys2Proof.Tests

open Sys2Proof Sys2Proof.Machine Sys2Proof.Claims

/-! Helpers. -/

/-- The next state, where there is one. -/
def stateOf : Result → Option State
  | .next s => some s
  | .fault _ => none
  | .refused _ => none

/-- The fault, where there is one. -/
def faultOf : Result → Option Fault
  | .next _ => none
  | .fault f => some f
  | .refused _ => none

/-- A state with bytes put at an address. -/
def poke (a : Nat) (bs : List Byte) (s : State) : State := { s with mem := storeBytes s.mem a bs }

/-- The state after reset with an instruction's bytes at pc. -/
def code (bs : List Byte) : State := placeBytes bs State.reset

/-- The state after reset at another pc. -/
def atPc (pc : Word) : State := State.reset.setPc pc

/-- A register after one step. -/
def regAfter (r : Reg) (s : State) : Option Word := (stateOf (step s)).map (State.reg · r)

/-- pc and the flags byte after one step. -/
def pcFlagsAfter (s : State) : Option (Word × BitVec 8) := (stateOf (step s)).map fun t => (t.pc, t.flags)

/-- Bytes of memory after one step. -/
def memAfter (addresses : List Nat) (s : State) : Option (List Byte) :=
  (stateOf (step s)).map fun t => addresses.map t.mem.read

/-- The run state and pc after one step. -/
def haltAfter (s : State) : Option (RunState × Word) := (stateOf (step s)).map fun t => (t.run, t.pc)

/-! WellFormed: one ill-formed term for each check (R90, R84). -/

theorem test_wellFormed_refuses_missing_row : Instr.wellFormedIn [] .hlt = false := by decide

theorem test_wellFormed_refuses_range_past_the_page :
    Instr.wellFormedIn [⟨0xF9, .movRImm⟩] (.movRImm .ax 5) = false ∧
    Instr.wellFormedIn [⟨0xF8, .movRImm⟩] (.movRImm .ax 5) = true := by decide

theorem test_wellFormed_accepts_default_map :
    Instr.wellFormed (.movRImm .bp 0xFFFFFF) = true ∧ Instr.wellFormed .hlt = true := by decide

/-! Decoding: one word for each constructor, written out from the rows of R90 and the formats of R89. -/

theorem test_decode_system :
    decodeTableWord 8 0b00000001 = some .hlt ∧
    decodeTableWord 8 0b00000010 = some .trap ∧
    decodeTableWord 16 0b00010000_00001111 = some (.escapeE 0x10) := by decide

theorem test_decode_incdec :
    decodeTableWord 16 0b00000111_00000011 = some (.incR .bp) ∧
    decodeTableWord 16 0b00000001_00000100 = some (.decR .bx) ∧
    decodeTableWord 32 0x040000_05 = some (.incByteA 0x040000) ∧
    decodeTableWord 32 0x040001_06 = some (.decByteA 0x040001) ∧
    decodeTableWord 32 0xFFFFFE_07 = some (.incWordA 0xFFFFFE) ∧
    decodeTableWord 32 0x123456_08 = some (.decWordA 0x123456) := by decide

theorem test_decode_interrupt : decodeTableWord 16 0b10000010_00001001 = some (.intCode 0x82) := by decide

theorem test_decode_clusters :
    decodeTableWord 16 0b00_000_001_00001010 = some (.addRxRy .ax .bx) ∧
    decodeTableWord 16 0b00_110_000_00001011 = some (.movRxRy .sp .ax) ∧
    decodeTableWord 16 0b00_100_001_00001100 = some (.lodbRxRy .si .bx) ∧
    decodeTableWord 16 0b00_101_010_00001101 = some (.lodwRxRy .gi .cx) ∧
    decodeTableWord 16 0b00_111_011_00001110 = some (.lodhRxRy .bp .dx) := by decide

theorem test_decode_jumps :
    decodeTableWord 32 0x030100_10 = some (.jmpT 0x030100) ∧
    decodeTableWord 32 0x030100_11 = some (.jeT 0x030100) ∧
    decodeTableWord 32 0x030100_12 = some (.jneT 0x030100) ∧
    decodeTableWord 32 0x030100_13 = some (.jcT 0x030100) ∧
    decodeTableWord 32 0x030100_14 = some (.jncT 0x030100) ∧
    decodeTableWord 32 0x030100_15 = some (.jsT 0x030100) ∧
    decodeTableWord 32 0x030100_16 = some (.jnT 0x030100) ∧
    decodeTableWord 32 0x030100_17 = some (.jiT 0x030100) ∧
    decodeTableWord 32 0x030100_18 = some (.jniT 0x030100) := by decide

theorem test_decode_push :
    decodeTableWord 32 0x123456_19 = some (.pushImm 0x123456) ∧
    decodeTableWord 16 0b00000110_00011010 = some (.pushR .sp) := by decide

theorem test_decode_moves :
    decodeTableWord 32 (0x123456 * 256 + 0b00100_111) = some (.movRImm .bp 0x123456) ∧
    decodeTableWord 32 (0x123456 * 256 + 0b00101_000) = some (.movRByteA .ax 0x123456) ∧
    decodeTableWord 32 (0x123456 * 256 + 0b00110_001) = some (.movRWordA .bx 0x123456) ∧
    decodeTableWord 32 (0x123456 * 256 + 0b00111_010) = some (.movByteAR 0x123456 .cx) ∧
    decodeTableWord 32 (0x123456 * 256 + 0b01000_011) = some (.movWordAR 0x123456 .dx) := by decide

theorem test_decode_add_cmp :
    decodeTableWord 32 (0x123456 * 256 + 0b01001_100) = some (.addRImm .si 0x123456) ∧
    decodeTableWord 32 (0x123456 * 256 + 0b01010_101) = some (.addRByteA .gi 0x123456) ∧
    decodeTableWord 32 (0x123456 * 256 + 0b01011_110) = some (.addRWordA .sp 0x123456) ∧
    decodeTableWord 32 (0x123456 * 256 + 0b01100_111) = some (.cmpRImm .bp 0x123456) := by decide

/-- The unassigned opcode bytes at the edges of the map's ranges (R90, R92; vectors SYS3 to SYS5). -/
theorem test_decode_refuses_unassigned :
    [0x00, 0x1B, 0x1F, 0x68, 0xFF].map opcodeMap = [none, none, none, none, none] := by decide

theorem test_decode_refuses_truncated :
    decode [0x20, 0x01, 0x02] = .error (.truncated 4) ∧ decode [0x0F] = .error (.truncated 2) ∧
    decode [0x1B] = .error (.illegalOpcode 0x1B) ∧ decode [] = .error (.truncated 1) := ⟨rfl, rfl, rfl, rfl⟩

/-! System (vectors SYS1 to SYS12). -/

/-- SYS1. -/
theorem test_hlt : haltAfter (code [0x01]) = some (.halted 0 .hlt, 0x030000) := by decide

/-- SYS9. -/
theorem test_hlt_at_top : haltAfter (poke 0xFFFFFF [0x01] (atPc 0xFFFFFF)) = some (.halted 0 .hlt, 0xFFFFFF) := by decide

/-- SYS2. -/
theorem test_trap : faultOf (step (code [0x02])) = some (.unmodelledTrap 0x030000) := by decide

/-- SYS7. -/
theorem test_escape :
    haltAfter (code [0x0F, 0x10]) = some (.halted 1 (.illegalInstruction [0x0F, 0x10] 0x030000), 0x030000) := by decide

/-- SYS8. -/
theorem test_escape_at_top : faultOf (step (poke 0xFFFFFF [0x0F] (atPc 0xFFFFFF))) = some (.addrWrap 0xFFFFFF 2) := by
  decide

/-- SYS3, from State.reset itself: its memory is zero. -/
theorem test_illegal_zero :
    haltAfter State.reset = some (.halted 1 (.illegalInstruction [0x00] 0x030000), 0x030000) := by decide

/-- SYS11. -/
theorem test_fetch_past_top : faultOf (step (poke 0xFFFFFD [0x20, 1, 2] (atPc 0xFFFFFD))) = some (.addrWrap 0xFFFFFD 4) := by
  decide

/-- SYS12. -/
theorem test_halted_step :
    stateOf (step { State.reset with run := .halted 7 (.exit 7) }) = some { State.reset with run := .halted 7 (.exit 7) } := by
  decide

/-! Increment and decrement (vectors ID1 to ID11, SYS10). -/

/-- ID2: the wrap, and no flag written. -/
theorem test_inc_wraps :
    (regAfter .ax ((code [0x03, 0x00]).setReg .ax 0xFFFFFF), pcFlagsAfter { (code [0x03, 0x00]) with flags := 0x0E }) =
      (some 0, some (0x030002, 0x0E)) := by decide

/-- ID4: the register byte's upper bits are ignored. -/
theorem test_inc_ignored_bits : regAfter .sp (code [0x03, 0xF6]) = some 0xFF0000 := by decide

/-- ID3. -/
theorem test_dec_wraps : regAfter .bx (code [0x04, 0x01]) = some 0xFFFFFF := by decide

/-- SYS10. -/
theorem test_pc_wrap : faultOf (step (poke 0xFFFFFE [0x03, 0x00] (atPc 0xFFFFFE))) = some (.pcWrap 0xFFFFFE) := by decide

/-- ID5. -/
theorem test_inc_byte_wraps :
    memAfter [0x040000, 0x040001] (poke 0x040000 [0xFF, 0x00] (code [0x05, 0x00, 0x00, 0x04])) = some [0, 0] := by decide

/-- ID6. -/
theorem test_dec_byte_wraps : memAfter [0x040000] (code [0x06, 0x00, 0x00, 0x04]) = some [0xFF] := by decide

/-- ID8. -/
theorem test_inc_word_wraps :
    memAfter [0x040000, 0x040001, 0x040002] (poke 0x040000 [0xFF, 0xFF, 0x55] (code [0x07, 0x00, 0x00, 0x04])) =
      some [0, 0, 0x55] := by decide

/-- ID10. -/
theorem test_inc_word_past_top : faultOf (step (code [0x07, 0xFF, 0xFF, 0xFF])) = some (.addrWrap 0xFFFFFF 2) := by decide

/-- ID9. -/
theorem test_dec_word_wraps : memAfter [0x040000, 0x040001] (code [0x08, 0x00, 0x00, 0x04]) = some [0xFF, 0xFF] := by decide

/-! Software interrupt and host services (vectors INT1 to INT20). A service that takes a value from the host is run on
the vector's value. -/

/-- INT1: with I clear, exit is a no-op. -/
theorem test_int_off : pcFlagsAfter { (code [0x09, 0x00]) with flags := 0 } = some (0x030002, 0) := by decide

/-- INT5: the last vector. -/
theorem test_int_vectored : pcFlagsAfter (poke 0xFF017D [0x34, 0x12, 0x05] (code [0x09, 0xFF])) = some (0x051234, 0x08) := by
  decide

/-- INT7. -/
theorem test_int_illegal :
    haltAfter (code [0x09, 0x08]) = some (.halted 1 (.illegalHwInterrupt 0x08 0x030000), 0x030000) := by decide

/-- INT9. -/
theorem test_exit :
    haltAfter ((poke 0xFEFFFF [0x05] (code [0x09, 0x00])).setReg .sp 0xFEFFFC) =
      some (.halted 5 (.exit 5), 0x030000) := by decide

/-- INT17. -/
theorem test_exit_stack_wrap :
    faultOf (step ((code [0x09, 0x00]).setReg .sp 0xFFFFFE)) = some (.stackWrap 0xFFFFFE) := by decide

/-- INT10. -/
theorem test_console_read :
    (stateOf (serviceConsoleRead (some 0x0A) State.reset)).map
        (fun t => ([0xFEFFFF, 0xFEFFFE, 0xFEFFFD].map t.mem.read, t.reg .sp, t.trace, t.pc)) =
      some ([0x0A, 0, 0], 0xFEFFFC, [.consoleIn 0x0A], 0x030002) := by decide

/-- INT18. -/
theorem test_console_read_stack_wrap :
    faultOf (serviceConsoleRead (some 0x0A) (State.reset.setReg .sp 1)) = some (.stackWrap 1) := by decide

/-- INT11. -/
theorem test_console_write :
    (stateOf (step ((poke 0xFEFFFE [0x12, 0x41] (code [0x09, 0x02])).setReg .sp 0xFEFFFC))).map
        (fun t => (t.trace, t.reg .sp, t.pc)) = some ([.consoleOut 0x41], 0xFEFFFF, 0x030002) := by decide

/-- INT12. -/
theorem test_reset_service :
    (stateOf (step { (((poke 0x040000 [0x09, 0x03] (atPc 0x040000)).setReg .ax 5).setReg .sp 0x100) with flags := 0x0C })).map
        (fun t => { t with mem := [] }) = some State.reset := by decide

/-- INT13. -/
theorem test_video_flush :
    (stateOf (step (code [0x09, 0x04]))).map (fun t => (t.trace, t.pc, t.regs)) =
      some ([.displayFlush], 0x030002, State.reset.regs) := by decide

/-- INT14. -/
theorem test_random :
    (stateOf (serviceRandom 0xBEEF State.reset)).map (fun t => (t.reg .ax, t.pc)) = some (0x00BEEF, 0x030002) := by decide

/-- INT15, with c = 0xFEDCBA. -/
theorem test_clock :
    (stateOf (serviceClock 0xFEDCBA State.reset)).map (fun t => (t.reg .ax, t.pc)) = some (0xFEDCBA, 0x030002) := by decide

/-- INT16. -/
theorem test_delay :
    (stateOf (step ((code [0x09, 0x07]).setReg .ax 100))).map (fun t => (t.trace, t.reg .ax, t.pc)) =
      some ([.delay 100], 100, 0x030002) := by decide

/-- INT19: a gated-off `int` at the top. -/
theorem test_int_off_pc_wrap :
    faultOf (step { (poke 0xFFFFFE [0x09, 0x80] (atPc 0xFFFFFE)) with flags := 0 }) = some (.pcWrap 0xFFFFFE) := by decide

/-- INT20: a vectored `int` at the top does not advance. -/
theorem test_int_vectored_at_top :
    pcFlagsAfter (poke 0xFF0000 [0x00, 0x00, 0x03] (poke 0xFFFFFE [0x09, 0x80] (atPc 0xFFFFFE))) =
      some (0x030000, 0x08) := by decide

/-! Addition and comparison (vectors AR1 to AR10, CMP1 to CMP8). -/

/-- AR1 and AR4: the destination is x, the upper bits are ignored. -/
theorem test_add_cluster :
    (stateOf (step (((code [0x0A, 0xC1]).setReg .ax 5).setReg .bx 3))).map (fun t => (t.reg .ax, t.reg .bx)) =
      some (8, 3) := by decide

/-- AR3. -/
theorem test_add_same_register : regAfter .cx ((code [0x0A, 0x12]).setReg .cx 0x800001) = some 0x000002 := by decide

/-- AR6. -/
theorem test_add_imm : regAfter .dx ((code [0x4B, 0x00, 0x00, 0x10]).setReg .dx 0x000010) = some 0x100010 := by decide

/-- AR7. -/
theorem test_add_byte :
    regAfter .bx (poke 0x040000 [0xFF, 0xFF] ((code [0x51, 0x00, 0x00, 0x04]).setReg .bx 0x10)) = some 0x10F := by decide

/-- AR8. -/
theorem test_add_word : regAfter .ax (poke 0x040000 [0x34, 0x12] (code [0x58, 0x00, 0x00, 0x04])) = some 0x001234 := by
  decide

/-- CMP5: the signs differ under the two readings. -/
theorem test_cmp_wrap24 : pcFlagsAfter (code [0x60, 0x00, 0x00, 0x90]) = some (0x030004, 0x08) := by decide

/-- CMP4, with N set before: both flags are written, C and I are not. -/
theorem test_cmp_equal : pcFlagsAfter { (code [0x60, 0, 0, 0]) with flags := 0x0B } = some (0x030004, 0x0D) := by decide

/-! Loads and moves (vectors LD1 to LD8, MV1 to MV10). -/

/-- LD1. -/
theorem test_lodb :
    (stateOf (step (poke 0x040000 [0xAB, 0xCD] ((code [0x0C, 0x21]).setReg .si 0x040000)))).map
        (fun t => (t.reg .bx, t.reg .si)) = some (0x0000AB, 0x040001) := by decide

/-- LD4: source and destination the same register. -/
theorem test_lodb_same_register :
    regAfter .ax (poke 0x040000 [0x05] ((code [0x0C, 0x00]).setReg .ax 0x040000)) = some 0x000006 := by decide

/-- LD2. -/
theorem test_lodw :
    (stateOf (step (poke 0x040000 [0x34, 0x12, 0x99] ((code [0x0D, 0x20]).setReg .si 0x040000)))).map
        (fun t => (t.reg .ax, t.reg .si)) = some (0x001234, 0x040002) := by decide

/-- LD7. -/
theorem test_lodw_past_top :
    faultOf (step ((code [0x0D, 0x20]).setReg .si 0xFFFFFF)) = some (.addrWrap 0xFFFFFF 2) := by decide

/-- LD8. -/
theorem test_lodh :
    (stateOf (step (poke 0xFFFFFD [1, 2, 3] ((code [0x0E, 0x20]).setReg .si 0xFFFFFD)))).map
        (fun t => (t.reg .ax, t.reg .si)) = some (0x030201, 0x000000) := by decide

/-- MV1. -/
theorem test_mov_cluster : regAfter .sp ((code [0x0B, 0x30]).setReg .ax 0x050000) = some 0x050000 := by decide

/-- MV4. -/
theorem test_mov_imm : regAfter .bp (code [0x27, 0xFF, 0xFF, 0xFF]) = some 0xFFFFFF := by decide

/-- MV5: zero-extended. -/
theorem test_mov_load_byte :
    regAfter .ax (poke 0x040000 [0x80, 0x11] ((code [0x28, 0x00, 0x00, 0x04]).setReg .ax 0xFFFFFF)) = some 0x000080 := by
  decide

/-- MV6. -/
theorem test_mov_load_word : regAfter .bx (poke 0x040000 [0xCD, 0xAB] (code [0x31, 0x00, 0x00, 0x04])) = some 0x00ABCD := by
  decide

/-- MV7. -/
theorem test_mov_store_byte :
    memAfter [0x050000, 0x050001] (poke 0x050001 [0x77] ((code [0x38, 0x00, 0x00, 0x05]).setReg .ax 0x123456)) =
      some [0x56, 0x77] := by decide

/-- MV10: a store to its own operand byte lands after the operands were read. -/
theorem test_mov_store_own_byte : memAfter [0x030001] (code [0x38, 0x01, 0x00, 0x03]) = some [0x00] := by decide

/-- MV8. -/
theorem test_mov_store_word :
    memAfter [0x050000, 0x050001, 0x050002] (poke 0x050002 [0x77] ((code [0x40, 0x00, 0x00, 0x05]).setReg .ax 0x123456)) =
      some [0x56, 0x34, 0x77] := by decide

/-! Jumps (vectors J1 to J20); the target is 0x030100. -/

/-- J20. -/
theorem test_jmp : pcFlagsAfter (code [0x10, 0xFF, 0xFF, 0xFF]) = some (0xFFFFFF, 0x08) := by decide

/-- J2 and J3. -/
theorem test_je :
    pcFlagsAfter { (code [0x11, 0x00, 0x01, 0x03]) with flags := 0x0C } = some (0x030100, 0x08) ∧
    pcFlagsAfter (code [0x11, 0x00, 0x01, 0x03]) = some (0x030004, 0x08) := by decide

/-- J4 and J5. -/
theorem test_jne :
    pcFlagsAfter (code [0x12, 0x00, 0x01, 0x03]) = some (0x030100, 0x08) ∧
    pcFlagsAfter { (code [0x12, 0x00, 0x01, 0x03]) with flags := 0x0C } = some (0x030004, 0x0C) := by decide

/-- J6 and J7. -/
theorem test_jc :
    pcFlagsAfter { (code [0x13, 0x00, 0x01, 0x03]) with flags := 0x09 } = some (0x030100, 0x08) ∧
    pcFlagsAfter (code [0x13, 0x00, 0x01, 0x03]) = some (0x030004, 0x08) := by decide

/-- J8 and J9. -/
theorem test_jnc :
    pcFlagsAfter (code [0x14, 0x00, 0x01, 0x03]) = some (0x030100, 0x08) ∧
    pcFlagsAfter { (code [0x14, 0x00, 0x01, 0x03]) with flags := 0x09 } = some (0x030004, 0x09) := by decide

/-- J10 and J11: `js` jumps when Negative is clear. -/
theorem test_js :
    pcFlagsAfter (code [0x15, 0x00, 0x01, 0x03]) = some (0x030100, 0x08) ∧
    pcFlagsAfter { (code [0x15, 0x00, 0x01, 0x03]) with flags := 0x0A } = some (0x030004, 0x0A) := by decide

/-- J12 and J13. -/
theorem test_jn :
    pcFlagsAfter { (code [0x16, 0x00, 0x01, 0x03]) with flags := 0x0A } = some (0x030100, 0x08) ∧
    pcFlagsAfter (code [0x16, 0x00, 0x01, 0x03]) = some (0x030004, 0x08) := by decide

/-- J14 and J15. -/
theorem test_ji :
    pcFlagsAfter (code [0x17, 0x00, 0x01, 0x03]) = some (0x030100, 0x00) ∧
    pcFlagsAfter { (code [0x17, 0x00, 0x01, 0x03]) with flags := 0 } = some (0x030004, 0x00) := by decide

/-- J16 and J17. -/
theorem test_jni :
    pcFlagsAfter { (code [0x18, 0x00, 0x01, 0x03]) with flags := 0 } = some (0x030100, 0x00) ∧
    pcFlagsAfter (code [0x18, 0x00, 0x01, 0x03]) = some (0x030004, 0x08) := by decide

/-- J18 and J19: only the untaken jump wraps. -/
theorem test_je_at_top :
    pcFlagsAfter { (poke 0xFFFFFC [0x11, 0x00, 0x01, 0x03] (atPc 0xFFFFFC)) with flags := 0x0C } =
      some (0x030100, 0x08) ∧
    faultOf (step (poke 0xFFFFFC [0x11, 0x00, 0x01, 0x03] (atPc 0xFFFFFC))) = some (.pcWrap 0xFFFFFC) := by decide

/-! Push (vectors PU1 to PU6). -/

/-- PU1. -/
theorem test_push_imm :
    (stateOf (step (code [0x19, 0x56, 0x34, 0x12]))).map
        (fun t => ([0xFEFFFF, 0xFEFFFE, 0xFEFFFD].map t.mem.read, t.reg .sp)) = some ([0x56, 0x34, 0x12], 0xFEFFFC) := by
  decide

/-- PU5. -/
theorem test_push_stack_wrap : faultOf (step ((code [0x19, 1, 2, 3]).setReg .sp 2)) = some (.stackWrap 2) := by decide

/-- PU3: `push SP` stores the old SP. -/
theorem test_push_sp :
    (stateOf (step (code [0x1A, 0x06]))).map
        (fun t => ([0xFEFFFF, 0xFEFFFE, 0xFEFFFD].map t.mem.read, t.reg .sp)) = some ([0xFF, 0xFF, 0xFE], 0xFEFFFC) := by
  decide

/-! Host control (vectors RST1 to RST3, R260). -/

/-- RST3. -/
theorem test_step_before_reset :
    haltAfter State.create = some (.halted 1 (.illegalInstruction [0x00] 0), 0) := by decide

/-- The reset state is the launch state of the empty image (R267). -/
theorem test_reset_is_empty_launch : State.launch [] = State.reset := by decide

/-- Only the full memory size can be created (R51). -/
theorem test_create_size : hostCreate 0x1000000 = some State.create ∧ hostCreate 0x10000 = none := by decide

/-- The word placed for the next fetch is the one that runs. -/
theorem test_withFetchWord : regAfter .bx (State.reset.withFetchWord 32 0x123456_21) = some 0x123456 := by decide

/-! Other configurations (R8): one parameter off its default at a time. -/

/-- A configuration far from the default one: an opcode map whose register range does not start at a multiple of 8, the
register indices in the opposite order, and the flags in the upper four bits. -/
def otherConfiguration : Configuration :=
  { Config.defaults with
    opcodeRows := [⟨0x0F, .escapeE⟩, ⟨0x21, .movRImm⟩, ⟨0x29, .hlt⟩, ⟨0x00, .addRxRy⟩]
    regOfIndex := fun k => Config.regOfIndex (7 - k)
    flagBit := fun f => 7 - Config.flagBit f }

/-- OPCODE_MAP and REG_INDEX: opcode - base is the register index (R84). -/
theorem test_cfg_opcode_map :
    decode [0x23, 0x56, 0x34, 0x12] otherConfiguration = .ok (.movRImm .gi 0x123456, []) ∧
    decode [0x00, 0b00_000_111] otherConfiguration = .ok (.addRxRy .bp .ax, []) ∧
    decode [0x29] otherConfiguration = .ok (.hlt, []) ∧
    decode [0x01] otherConfiguration = .error (.illegalOpcode 0x01) := ⟨rfl, rfl, rfl, rfl⟩

/-- EXT_OPCODE_MAP: a configured slot follows its own rule, and the others stay illegal (R114, R116). -/
theorem test_cfg_ext_map :
    let cfg := { Config.defaults with
      extOpcodeMap := fun e => if e = 0x10 then .instruction (fun s => advance 2 (s.setReg .cx 7)) else .illegal }
    (stateOf (stepIn cfg (code [0x0F, 0x10]))).map (fun t => (t.reg .cx, t.pc)) = some (7, 0x030002) ∧
    (stateOf (stepIn cfg (code [0x0F, 0x11]))).map (·.run) =
      some (.halted 1 (.illegalInstruction [0x0F, 0x11] 0x030000)) := by decide

/-- FLAG_BITS: reset sets I and nothing else, at the configured place (R261). -/
theorem test_cfg_flag_bits : (hostReset State.create otherConfiguration).flags = 0b0001_0000 := by decide

/-- HOST_SERVICE_MAP and SERVICE_REG. -/
theorem test_cfg_services :
    let cfg := { Config.defaults with
      hostServiceMap := fun c => if c = 0x40 then some .delay else none, serviceReg := .dx }
    (stateOf (stepIn cfg ((code [0x09, 0x40]).setReg .dx 9))).map (·.trace) = some [.delay 9] ∧
    (stateOf (stepIn cfg (code [0x09, 0x07]))).map (·.run) =
      some (.halted 1 (.illegalHwInterrupt 0x07 0x030000)) := by decide

/-- CLUSTER_DEST y: `add AX, BX` writes BX (D6). -/
theorem test_cfg_cluster_dest :
    (stateOf (stepIn { Config.defaults with clusterDest := .y } (((code [0x0A, 0x01]).setReg .ax 5).setReg .bx 3))).map
        (fun t => (t.reg .ax, t.reg .bx)) = some (5, 8) := by decide

/-- STACK_SLOT_LAYOUT LittleEndianLow: a push of 0x123456 (program P7's alternative). -/
theorem test_cfg_stack_layout :
    (stateOf (stepIn { Config.defaults with stackSlotLayout := .littleEndianLow } (code [0x19, 0x56, 0x34, 0x12]))).map
        (fun t => ([0xFEFFFD, 0xFEFFFE, 0xFEFFFF].map t.mem.read, t.reg .sp)) =
      some ([0x56, 0x34, 0x12], 0xFEFFFC) := by decide

/-- CMP_SIGN_READING Exact: vectors CMP5, CMP6 and CMP8. -/
theorem test_cfg_cmp_exact :
    let cfg := { Config.defaults with cmpSignReading := .exact }
    (stateOf (stepIn cfg (code [0x60, 0x00, 0x00, 0x90]))).map (·.flags) = some 0x0A ∧
    (stateOf (stepIn cfg ((code [0x60, 0, 0, 0]).setReg .ax 0x800000))).map (·.flags) = some 0x08 ∧
    (stateOf (stepIn cfg ((code [0x60, 0, 0, 0]).setReg .ax 0xFFFFFF))).map (·.flags) = some 0x08 := by decide

/-- DELAY_CAP_MS caps the sleep request (R231). -/
theorem test_cfg_delay_cap : sleepRequest 100 { Config.defaults with delayCapMs := 60 } = 60 := by decide

/-- The core is the configured one at the default configuration. -/
theorem test_configuredCore_defaults : configuredCore Config.defaults = Sys2Proof.core := rfl

/-! Witnesses. A statement that no `witness_` theorem names by its own name is named in the docstring of the one that
serves it. -/

/-- Every handler has an opcode byte: the premise of the `Decodes…` clauses. -/
theorem witness_opcodeMap :
    (Config.fixedRows.map fun row => opcodeMap row.base) = Config.fixedRows.map (some ·.opcode) ∧
    (Config.registerRows.map fun row => opcodeMap (row.base + 7)) = Config.registerRows.map (some ·.opcode) := by decide

/-- A configuration the spec admits, other than the default one, and an instruction it encodes. -/
theorem witness_DecodeOfEncode_configured :
    otherConfiguration.Valid ∧ Instr.wellFormed (.movRImm .bp 0xFFFFFF) otherConfiguration = true where
  left :=
    { rowsDisjoint := by decide +kernel
      pageEscape := by decide +kernel
      everyRegister := fun r => ⟨7 - indexOfReg r, by cases r <;> rfl⟩
      flagInByte := fun f => by cases f <;> decide
      flagsApart := fun f g => by cases f <;> cases g <;> decide }
  right := by decide

theorem witness_DecodeOfEncode : Instr.wellFormed (.cmpRImm .bp 0xFFFFFF) = true ∧ Instr.wellFormed .trap = true := by decide

theorem witness_EncodeOfDecode : decode [0x03, 0xF6, 0x55] = .ok (.incR .sp, [0x55]) := rfl

theorem witness_OpcodeFixesLength :
    decode [0x67, 1, 2, 3, 4] = .ok (.cmpRImm .bp 0x030201, [4]) ∧
    decode [0x67, 9, 9, 9] = .ok (.cmpRImm .bp 0x090909, []) := ⟨rfl, rfl⟩

theorem witness_StepRunsTheDecodedInstruction :
    let s := poke 0xFFFFFE [0x03, 0x02] (atPc 0xFFFFFE)
    s.run = .running ∧ decode (fetchBytes s.mem s.pc) = .ok (.incR .cx, []) := ⟨rfl, rfl⟩

theorem witness_StepRunsTheDecodedInstruction_configured :
    let s := code [0x23, 0x56, 0x34, 0x12]
    s.run = .running ∧ decode (fetchBytes s.mem s.pc) otherConfiguration = .ok (.movRImm .gi 0x123456, []) := ⟨rfl, rfl⟩

theorem witness_HaltedStepChangesNothing :
    let s : State := { State.reset with run := .halted 7 (.exit 7) }
    s.run = .halted 7 (.exit 7) ∧ ∃ t, hostWrite .triple 0xFFFFFD 0x123456 s = .ok t := ⟨rfl, _, rfl⟩

theorem witness_IllegalPrimaryOpcodeHalts :
    let s := poke 0xFFFFFF [0x68] (atPc 0xFFFFFF)
    s.run = .running ∧ opcodeMap (s.mem.read s.pc.toNat) = none := ⟨rfl, by decide⟩

theorem witness_FetchPastTopFaults :
    let s := poke 0xFFFFFD [0x20] (atPc 0xFFFFFD)
    s.run = .running ∧ opcodeMap (s.mem.read s.pc.toNat) = some .movRImm ∧
      0x1000000 < s.pc.toNat + Opcode.movRImm.format.width := ⟨rfl, by decide, by decide⟩

theorem witness_SequentialWrapFaults :
    (0xFFFFFF < (atPc 0xFFFFFC).pc.toNat + (Instr.jmpT 5).width ∧ ∃ t, exec (.jmpT 5) (atPc 0xFFFFFC) = .next t) ∧
    (0xFFFFFF < (atPc 0xFFFFFF).pc.toNat + Instr.hlt.width ∧ ∃ t, exec .hlt (atPc 0xFFFFFF) = .next t) ∧
    (0xFFFFFF < (atPc 0xFFFFFE).pc.toNat + (Instr.incR .ax).width ∧
      (Instr.incR .ax).opcode ∈ [Opcode.incR, .decR, .addRxRy, .movRxRy, .movRImm, .addRImm, .cmpRImm]) :=
  ⟨⟨by decide, _, rfl⟩, ⟨by decide, _, rfl⟩, by decide, by decide⟩

/-- The clauses of SequentialWrapFaults about `int`, at the first pc from which it does not advance, with SP at the ends of
the pop and of the push. -/
theorem witness_SequentialWrapFaults_int :
    let s := (atPc 0xFFFFFE).setReg .sp 0xFFFFFC
    let u := (atPc 0xFFFFFE).setReg .sp 3
    (0xFFFFFF < s.pc.toNat + 2 ∧ 0xFFFFFF < u.pc.toNat + 2 ∧ (s.setFlag .i false).flag .i = false ∧
      0xFFFFFF < (s.setFlag .i false).pc.toNat + 2) ∧
    (Runs 0x04 .videoFlush s ∧ Runs 0x05 .random s ∧ Runs 0x06 .clock s ∧ Runs 0x07 .delay s) ∧
    (Runs 0x02 .consoleWrite s ∧ (s.reg .sp).toNat ≤ 0xFFFFFC) ∧ (Runs 0x01 .consoleRead u ∧ 3 ≤ (u.reg .sp).toNat) :=
  ⟨by decide, ⟨⟨rfl, by decide, rfl⟩, ⟨rfl, by decide, rfl⟩, ⟨rfl, by decide, rfl⟩, ⟨rfl, by decide, rfl⟩⟩,
    ⟨⟨rfl, by decide, rfl⟩, by decide⟩, ⟨rfl, by decide, rfl⟩, by decide⟩

theorem witness_PcAfterAnInstruction :
    (∃ t, exec .hlt State.reset = .next t ∧ t.run ≠ .running) ∧
    (∃ t, exec (.incR .ax) (atPc 0xFFFFFD) = .next t ∧ t.run = .running) :=
  ⟨⟨_, rfl, by decide⟩, _, rfl, rfl⟩

/-- For ReadsAreLittleEndian, WritesStoreTheLowBytes and AccessPastTopFaults. -/
theorem witness_memory_accesses :
    (0xFFFFFD#24).toNat + Width.triple.bytes ≤ 0x1000000 ∧ (0xFFFFFF#24).toNat + Width.byte.bytes ≤ 0x1000000 ∧
    0x1000000 < (0xFFFFFE#24).toNat + Width.triple.bytes ∧ 0x1000000 < (0xFFFFFF#24).toNat + Width.word.bytes := by decide

theorem witness_CanonicalMemoriesAreEqual :
    Memory.wf (Memory.write (Memory.write [] 7 1) 5 2) = true ∧ Memory.wf [(5, 2), (7, 1)] = true ∧
    (∀ a, (Memory.write (Memory.write [] 7 1) 5 2).read a = Memory.read [(5, 2), (7, 1)] a) :=
  ⟨by decide, by decide, fun _ => rfl⟩

/-- For PushThenPop, PopReadsTheSlot, StackWrapFaults and the fault of ExitServiceHalts. -/
theorem witness_stack_ends :
    3 ≤ ((State.reset.setReg .sp 3).reg .sp).toNat ∧ ((State.reset.setReg .sp 0xFFFFFC).reg .sp).toNat ≤ 0xFFFFFC ∧
    ((State.reset.setReg .sp 2).reg .sp).toNat < 3 ∧ 0xFFFFFC < ((State.reset.setReg .sp 0xFFFFFD).reg .sp).toNat ∧
    Runs 0x00 .exit (State.reset.setReg .sp 0xFFFFFD) ∧ Runs 0x02 .consoleWrite (State.reset.setReg .sp 0xFFFFFD) ∧
    stackPop (State.reset.setReg .sp 0xFFFFFD) = .error (.stackWrap 0xFFFFFD) ∧
    Runs 0x01 .consoleRead (State.reset.setReg .sp 2) :=
  ⟨by decide, by decide, by decide, by decide, ⟨rfl, by decide, rfl⟩, ⟨rfl, by decide, rfl⟩, rfl, ⟨rfl, by decide, rfl⟩⟩

theorem witness_NextFetchSeesTheStore :
    (0x030004 : Word) = State.reset.pc + 4 ∧ ∃ t, exec (.movByteAR 0x030004 .sp) State.reset = .next t :=
  ⟨rfl, _, rfl⟩

theorem witness_OnlyStoresChangeMemory :
    ∃ t, exec (.movByteAR 0x040000 .sp) State.reset = .next t ∧ t.mem.read 0x040000 ≠ State.reset.mem.read 0x040000 :=
  ⟨_, rfl, by decide⟩

/-- The last pc from which a 2-byte and a 4-byte instruction advance, and the first from which they do not: for
IncDecRegister, IncDecMemoryByte, AddRegister, AddImmediate, CompareImmediate, MoveRegister, MoveImmediate, and the pc of
the other memory forms. -/
theorem witness_pc_ends :
    (atPc 0xFFFFFD).pc.toNat + 2 ≤ 0xFFFFFF ∧ 0xFFFFFF < (atPc 0xFFFFFE).pc.toNat + 2 ∧
    (atPc 0xFFFFFB).pc.toNat + 4 ≤ 0xFFFFFF ∧ 0xFFFFFF < (atPc 0xFFFFFC).pc.toNat + 4 := by decide

/-- The word operands of the memory forms at the top of memory, and the address where they fault: for IncDecMemoryWord,
AddMemory, LoadAbsolute and StoreAbsolute. -/
theorem witness_word_operand_ends :
    (0xFFFFFE#24).toNat + 2 ≤ 0x1000000 ∧ ¬ (0xFFFFFF#24).toNat + 2 ≤ 0x1000000 := by decide

/-- Each clause of `AutoIncrements` for each width: the last access that fits, with pc that advances and pc that does not,
and the first access past the top; two registers and one register. -/
theorem witness_AutoIncrementLoads :
    (∀ n ∈ [1, 2, 3], let s := (atPc 0xFFFFFD).setReg .si (BitVec.ofNat 24 (0x1000000 - n))
      (s.reg .si).toNat + n ≤ 0x1000000 ∧ s.pc.toNat + 2 ≤ 0xFFFFFF) ∧
    (∀ n ∈ [1, 2, 3], let s := (atPc 0xFFFFFE).setReg .si (BitVec.ofNat 24 (0x1000000 - n))
      (s.reg .si).toNat + n ≤ 0x1000000 ∧ 0xFFFFFF < s.pc.toNat + 2) ∧
    (∀ n ∈ [2, 3], 0x1000000 < ((State.reset.setReg .si (BitVec.ofNat 24 (0x1000001 - n))).reg .si).toNat + n) ∧
    Reg.si ≠ Reg.ax ∧ Reg.si = Reg.si := by decide

/-- Each clause of `JumpsClearing` and `JumpsOnClear` for each flag: for JumpsThatClearTheirFlag and JumpsOnAClearFlag. -/
theorem witness_conditional_jumps :
    (∀ f ∈ [Flag.z, .c, .n, .i], ((atPc 0xFFFFFB).setFlag f true).flag f = true) ∧
    (∀ f ∈ [Flag.z, .c, .n, .i], ((atPc 0xFFFFFB).setFlag f false).flag f = false) ∧
    (∀ f ∈ [Flag.z, .c, .n, .i], ((atPc 0xFFFFFC).setFlag f true).flag f = true) ∧
    (∀ f ∈ [Flag.z, .c, .n, .i], ((atPc 0xFFFFFC).setFlag f false).flag f = false) ∧
    (atPc 0xFFFFFB).pc.toNat + 4 ≤ 0xFFFFFF ∧ 0xFFFFFF < (atPc 0xFFFFFC).pc.toNat + 4 := by decide

theorem witness_PushInstructions :
    let s := (atPc 0xFFFFFB).setReg .sp 3
    3 ≤ (s.reg .sp).toNat ∧ s.pc.toNat + 4 ≤ 0xFFFFFF ∧ s.pc.toNat + 2 ≤ 0xFFFFFF := by decide

theorem witness_IntWithInterruptsOffOnlyAdvances :
    (let s := (atPc 0xFFFFFD).setFlag .i false; s.flag .i = false ∧ s.pc.toNat + 2 ≤ 0xFFFFFF) ∧
    (∃ t, exec (.jiT 0x030100) State.reset = .next t ∧ t.flag .i ≠ State.reset.flag .i) :=
  ⟨by decide, _, rfl, by decide⟩

theorem witness_VectoredIntJumpsThroughTheTable :
    127 < 128 ∧ 0 < 128 ∧ State.reset.flag .i = true := by decide

theorem witness_IllegalInterruptCodeHalts :
    State.reset.flag .i = true ∧ (0x7F : Byte) < 0x80 ∧ Config.hostServiceMap 0x7F = none ∧
    Config.hostServiceMap 0x08 = none := by decide

/-- Every host service has a code that runs it after reset: for ResetServiceResets. -/
theorem witness_Runs :
    Runs 0x00 .exit State.reset ∧ Runs 0x01 .consoleRead State.reset ∧ Runs 0x02 .consoleWrite State.reset ∧
    Runs 0x03 .reset State.reset ∧ Runs 0x04 .videoFlush State.reset ∧ Runs 0x05 .random State.reset ∧
    Runs 0x06 .clock State.reset ∧ Runs 0x07 .delay State.reset :=
  ⟨⟨rfl, by decide, rfl⟩, ⟨rfl, by decide, rfl⟩, ⟨rfl, by decide, rfl⟩, ⟨rfl, by decide, rfl⟩, ⟨rfl, by decide, rfl⟩,
    ⟨rfl, by decide, rfl⟩, ⟨rfl, by decide, rfl⟩, ⟨rfl, by decide, rfl⟩⟩

/-- The services that advance, at the last pc from which they do, and the pops and the push at the last SP: for
ExitServiceHalts, ConsoleWriteEmitsTheLowByte, ConsoleReadPushesTheByte, VideoFlushOnlyRecords,
RandomAndClockWriteTheServiceRegister and DelayOnlyRecords. -/
theorem witness_services :
    let s := (atPc 0xFFFFFD).setReg .sp 0xFFFFFC
    let u := (atPc 0xFFFFFD).setReg .sp 3
    (Runs 0x00 .exit s ∧ Runs 0x02 .consoleWrite s ∧ ∃ v t, stackPop s = .ok (v, t)) ∧
    (Runs 0x01 .consoleRead u ∧ 3 ≤ (u.reg .sp).toNat) ∧
    (Runs 0x04 .videoFlush s ∧ Runs 0x05 .random s ∧ Runs 0x06 .clock s ∧ Runs 0x07 .delay s) ∧
    s.pc.toNat + 2 ≤ 0xFFFFFF ∧ u.pc.toNat + 2 ≤ 0xFFFFFF :=
  ⟨⟨⟨rfl, by decide, rfl⟩, ⟨rfl, by decide, rfl⟩, _, _, rfl⟩, ⟨⟨rfl, by decide, rfl⟩, by decide⟩,
    ⟨⟨rfl, by decide, rfl⟩, ⟨rfl, by decide, rfl⟩, ⟨rfl, by decide, rfl⟩, ⟨rfl, by decide, rfl⟩⟩, by decide, by decide⟩

theorem witness_OnlyTheseInstructionsWriteFlags :
    ∃ t, exec (.cmpRImm .ax 0) State.reset = .next t ∧ t.flags ≠ State.reset.flags := ⟨_, rfl, by decide⟩

/-- For InterruptEnableStaysClear and CarryIsNeverSet. -/
theorem witness_flag_rules :
    (let s := (code [0x03, 0x00]).setFlag .i false; (∃ t, step s = .next t) ∧ s.flag .i = false) ∧
    (let s := (code [0x03, 0x00]).setFlag .c true; ∃ t, step s = .next t ∧ t.flag .c = true) :=
  ⟨⟨⟨_, rfl⟩, by decide⟩, _, rfl, by decide⟩

theorem witness_StepKeepsTheInvariant :
    (code [0x60, 0, 0, 0]).Inv ∧ ∃ t, step (code [0x60, 0, 0, 0]) = .next t :=
  ⟨⟨by decide, by decide, by decide, by decide⟩, _, rfl⟩

/-- A reachable state, and the jumps that complete in it. -/
theorem witness_ReachableStatesMeetTheInvariant :
    Reachable State.reset ∧ ∃ t, exec (.jcT 0x030100) State.reset = .next t :=
  ⟨.reset .create, _, rfl⟩

/-- A later cell at another address, and an address with no cell. -/
theorem witness_LaunchState : ∀ cell ∈ [((0x030000 : Word), (0x01 : Byte))], cell.1 ≠ (0x030001 : Word) := by
  simp

theorem witness_HostAccessorsTouchMemoryOnly :
    (0xFFFFFD#24).toNat + Width.triple.bytes ≤ 0x1000000 ∧ 0x1000000 < (0xFFFFFF#24).toNat + Width.word.bytes :=
  ⟨by decide, by decide⟩

/-- A program of one `hlt` halts in one step. -/
theorem witness_RunReportsTheHaltStatus :
    (∃ t, hostRun 1 (code [0x01]) = some (.next (t, ⟨true, 0⟩))) ∧
    (∃ t, Sys2Proof.core.run 1 (code [0x01]) = .next t ∧ t.run = .halted 0 .hlt) :=
  ⟨⟨_, rfl⟩, _, rfl, rfl⟩

theorem witness_SafeRunsKeepTheInvariant :
    (code [0x01]).Inv ∧ SafeFor 1 (code [0x01]) ∧
    ({ State.reset with run := .halted 7 (.exit 7) } : State).run ≠ .running :=
  ⟨⟨by decide, by decide, by decide, by decide⟩, ⟨_, rfl⟩, by decide⟩

end Sys2Proof.Tests
end

section
/-! Which instructions write the flags byte (R38). -/

namespace Sys2Proof.Machine

/-- A push leaves the flags byte as it was (R58). -/
theorem stackPush_flags {v : Word} {s u : State} (h : stackPush v s = .ok u) : u.flags = s.flags := by
  obtain ⟨_, rfl⟩ := stackPush_ok h
  rfl

/-- A pop leaves the flags byte as it was (R59). -/
theorem stackPop_flags {v : Word} {s u : State} (h : stackPop s = .ok (v, u)) : u.flags = s.flags := by
  obtain ⟨_, _, rfl⟩ := stackPop_ok h
  rfl

/-- A completed `int` writes the flags byte only when it runs the reset service (R38, R227). -/
theorem IntEffect.flags_eq_or_reset {s t : State} {code : Byte} (h : IntEffect s code t) :
    t.flags = s.flags ∨ (Runs code .reset s ∧ t.flags = (hostReset s).flags) := by
  cases h with
  | off | vectored | illegal | blocked | event | draw => exact .inl rfl
  | consoleRead _ hp =>
    have hu := stackPush_flags hp
    exact .inl hu
  | exited _ hp | consoleWrite _ hp =>
    have hu := stackPop_flags hp
    exact .inl hu
  | reset hr => exact .inr ⟨hr, rfl⟩

/-- Settles O50, by cases on the shape of the completed instruction: only a compare, a clearing jump and the reset
service have a shape in which the flags byte differs. -/
theorem onlyTheseInstructionsWriteFlags : Obligations.OnlyTheseInstructionsWriteFlags := by
  intro i s t h hne
  cases exec_effect h with
  | halt | register | autoIncrement | store | jump => exact absurd rfl hne
  | push hp => exact absurd (stackPush_flags hp) hne
  | compare _ _ _ hi => exact .inl ⟨hi, by simp, by simp, by simp⟩
  | jumpClearing _ _ hf hi =>
    obtain ⟨hi, rfl⟩ | ⟨hi, rfl⟩ | ⟨hi, rfl⟩ | ⟨hi, rfl⟩ := hi
    · exact .inr (.inl ⟨hi, hf, rfl⟩)
    · exact .inr (.inr (.inl ⟨hi, hf, rfl⟩))
    · exact .inr (.inr (.inr (.inl ⟨hi, hf, rfl⟩)))
    · exact .inr (.inr (.inr (.inr (.inl ⟨hi, hf, rfl⟩))))
  | int hint =>
    obtain heq | hreset := hint.flags_eq_or_reset
    · exact absurd heq hne
    · exact .inr (.inr (.inr (.inr (.inr ⟨_, rfl, hreset⟩))))

end Sys2Proof.Machine
end

section
/-! The accessors as little-endian numbers: a read gives the number of the accessed bytes, and a write of any width is read
back modulo its width (R52, R53, R54). -/

namespace Sys2Proof.Machine

open Sys2Proof.Claims

/-! The number that `n` bytes form. -/

theorem bytesAt_one (m : Memory) (a : Nat) : bytesAt m a 1 = (m.read a).toNat := by
  simp [bytesAt]

theorem bytesAt_two (m : Memory) (a : Nat) : bytesAt m a 2 = (m.read a).toNat + 256 * (m.read (a + 1)).toNat := by
  simp [bytesAt]

theorem bytesAt_three (m : Memory) (a : Nat) :
    bytesAt m a 3 = (m.read a).toNat + 256 * (m.read (a + 1)).toNat + 65536 * (m.read (a + 2)).toNat := by
  simp only [bytesAt]
  ring

/-- Cells that hold the bytes of a word from byte `j` on hold its bits from 8j on (R54). -/
theorem bytesAt_of_read_eq_byteOf {m : Memory} {v : Word} {a n : Nat} (j : Nat)
    (h : ∀ k < n, m.read (a + k) = byteOf v (j + k)) : bytesAt m a n = v.toNat / 2 ^ (8 * j) % 2 ^ (8 * n) := by
  induction n generalizing a j with
  | zero => simp [bytesAt, Nat.mod_one]
  | succ n ih =>
    have hlow : m.read a = byteOf v j := h 0 n.succ_pos
    have hhigh : bytesAt m (a + 1) n = v.toNat / 2 ^ (8 * (j + 1)) % 2 ^ (8 * n) := by
      refine ih (j + 1) fun k hk => ?_
      simpa only [Nat.add_assoc, Nat.add_comm 1] using h (k + 1) (by omega)
    have hdiv : v.toNat / 2 ^ (8 * (j + 1)) = v.toNat / 2 ^ (8 * j) / 256 := by
      rw [Nat.mul_succ, Nat.pow_add, Nat.div_div_eq_div_mul]
    have hpow : 2 ^ (8 * (n + 1)) = 256 * 2 ^ (8 * n) := by
      rw [Nat.mul_succ, Nat.pow_add, Nat.mul_comm]
    rw [bytesAt, hlow, hhigh, byteOf_toNat, hdiv, hpow, Nat.mod_mul]

/-- The mask of R52 takes a word modulo 2^8. -/
theorem and_byteMask_eq_ofNat_mod (v : Word) : v &&& 0x0000FF = BitVec.ofNat 24 (v.toNat % 2 ^ 8) := by
  apply BitVec.eq_of_toNat_eq
  have hmask : v.toNat &&& (2 ^ 8 - 1) = v.toNat % 2 ^ 8 := Nat.and_two_pow_sub_one_eq_mod v.toNat 8
  rw [BitVec.toNat_and, BitVec.toNat_ofNat, Nat.mod_eq_of_lt (by omega)]
  exact hmask

/-! The accessors. -/

/-- A read inside the memory gives the number its bytes form (R53). -/
theorem memRead_of_le {m : Memory} {a : Word} {n : Width} (h : a.toNat + n.bytes ≤ 0x1000000) :
    ∃ v, memRead m a n = .ok v ∧ v.toNat = bytesAt m a.toNat n.bytes := by
  cases n with
  | byte => exact ⟨_, memRead_byte m a, (BitVec.toNat_setWidth_of_le (by decide)).trans (bytesAt_one ..).symm⟩
  | word => exact ⟨_, memRead_word h, (joinBytes_toNat ..).trans (bytesAt_two ..).symm⟩
  | triple => exact ⟨_, memRead_triple h, (joinBytes_toNat ..).trans (bytesAt_three ..).symm⟩

/-- A write inside the memory completes (R54, R55). -/
theorem exists_memWrite_of_le (m : Memory) {a : Word} {n : Width} (v : Word) (h : a.toNat + n.bytes ≤ 0x1000000) :
    ∃ m', memWrite m a n v = .ok m' := by
  unfold memWrite
  rw [if_pos ((inMemory_iff a n.bytes).mpr h)]
  exact ⟨_, rfl⟩

/-- After a write its cells form the value modulo 2^8n (R54). -/
theorem bytesAt_of_memWrite {m m' : Memory} {a v : Word} {n : Width} (h : memWrite m a n v = .ok m') :
    bytesAt m' a.toNat n.bytes = v.toNat % 2 ^ (8 * n.bytes) := by
  obtain ⟨-, hread, -⟩ := memWrite_ok h
  have hbytes := bytesAt_of_read_eq_byteOf (m := m') (v := v) (a := a.toNat) (n := n.bytes) 0
    fun k hk => by rw [Nat.zero_add, hread k hk]
  simpa using hbytes

/-- A read after a write at the same address and width gives the value modulo 2^8n (R53, R54). -/
theorem memRead_of_memWrite {m m' : Memory} {a v : Word} {n : Width} (h : memWrite m a n v = .ok m') :
    memRead m' a n = .ok (BitVec.ofNat 24 (v.toNat % 2 ^ (8 * n.bytes))) := by
  obtain ⟨hle, -, -⟩ := memWrite_ok h
  obtain ⟨x, hx, hxv⟩ := memRead_of_le (m := m') hle
  rw [hx, ← bytesAt_of_memWrite h, ← hxv, BitVec.ofNat_toNat, BitVec.setWidth_eq]

/-! The statements of R52, R53 and R54. -/

/-- Settles O14: the one-byte accessors complete at every address, and the byte read back is the value modulo 2^8. -/
theorem byteAccessAlwaysSucceeds : Obligations.ByteAccessAlwaysSucceeds := by
  intro m a v
  refine ⟨memRead_byte m a, _, memWrite_byte m a v, ?_⟩
  rw [and_byteMask_eq_ofNat_mod]
  exact memRead_of_memWrite (memWrite_byte m a v)

/-- Settles O15: the number that the accessed bytes form, written out for each width. -/
theorem readsAreLittleEndian : Obligations.ReadsAreLittleEndian := by
  intro m a n h
  obtain ⟨v, hv, hsum⟩ := memRead_of_le (m := m) h
  refine ⟨v, hv, hsum.trans ?_⟩
  cases n with
  | byte => exact bytesAt_one m a.toNat
  | word => exact bytesAt_two m a.toNat
  | triple => exact bytesAt_three m a.toNat

/-- Settles O16: what a completed write does, with the read that follows it. -/
theorem writesStoreTheLowBytes : Obligations.WritesStoreTheLowBytes := by
  intro m a v n h
  obtain ⟨m', hm'⟩ := exists_memWrite_of_le m v h
  obtain ⟨-, hbytes, hframe⟩ := memWrite_ok hm'
  exact ⟨m', hm', hbytes, hframe, memRead_of_memWrite hm'⟩

end Sys2Proof.Machine
end

section
/-! The length of an instruction (R80) and the rows of the default opcode map (R90, R92). -/

namespace Sys2Proof

open Machine (Configuration)

/-! How many bytes the decoder takes. -/

/-- The widths of R89's formats. -/
theorem Format.width_eq_one_or_two_or_four (f : Format) : f.width = 1 ∨ f.width = 2 ∨ f.width = 4 := by
  cases f with
  | n => exact .inl rfl
  | r | c | i8 | e => exact .inr (.inl rfl)
  | a | oa => exact .inr (.inr rfl)

/-- A decoded instruction's handler is the opcode byte's, and the bytes left are the ones past the instruction's width. -/
theorem decode_cons_ok {op : Byte} {tail rest : List Byte} {i : Instr} {cfg : Configuration}
    (h : decode (op :: tail) cfg = .ok (i, rest)) :
    opcodeMap op cfg = some i.opcode ∧ i.width ≤ tail.length + 1 ∧ rest = tail.drop (i.width - 1) := by
  obtain ⟨_, _, row, hbytes, hrow, hwidth, rfl, rfl⟩ := decode_ok h
  cases hbytes
  have hopcode : (instrOf row.opcode (opcodeIndex op row) tail cfg).opcode = row.opcode := instrOf_opcode ..
  rw [Instr.width, hopcode]
  exact ⟨by rw [opcodeMap, hrow, Option.map_some], hwidth, rfl⟩

/-- The decoder takes as many bytes as the instruction is wide (R80). -/
theorem decode_cons_length {op : Byte} {tail rest : List Byte} {i : Instr} {cfg : Configuration}
    (h : decode (op :: tail) cfg = .ok (i, rest)) : tail.length + 1 = i.width + rest.length := by
  obtain ⟨-, hle, rfl⟩ := decode_cons_ok h
  have hwidths : i.width = 1 ∨ i.width = 2 ∨ i.width = 4 := i.opcode.format.width_eq_one_or_two_or_four
  rw [List.length_drop]
  omega

/-- The opcode byte alone fixes the handler of what is decoded (R80). -/
theorem decode_cons_opcode_unique {op : Byte} {tail tail' rest rest' : List Byte} {i j : Instr} {cfg : Configuration}
    (hi : decode (op :: tail) cfg = .ok (i, rest)) (hj : decode (op :: tail') cfg = .ok (j, rest')) :
    i.opcode = j.opcode := by
  obtain ⟨hi, -, -⟩ := decode_cons_ok hi
  obtain ⟨hj, -, -⟩ := decode_cons_ok hj
  exact Option.some.inj (hi.symm.trans hj)

/-! The statements of R80 and of R90 and R92. -/

/-- Settles O4: the width is the format's of the handler, and the handler is the opcode byte's. -/
theorem opcodeFixesLength : Obligations.OpcodeFixesLength := by
  refine ⟨fun _ _ _ i h => ⟨i.opcode.format.width_eq_one_or_two_or_four, decode_cons_length h⟩, ?_, fun _ => rfl⟩
  intro _ _ _ _ _ i j hi hj
  rw [Instr.width, Instr.width, decode_cons_opcode_unique hi hj]

/-- Settles O1: each of the 35 words is run through the decoder, and the illegal bytes are the unassigned ones of the
default map. -/
theorem specWordsDecode : Obligations.SpecWordsDecode := by
  refine ⟨?systemToEscape, ?jumpsAndPushes, ?registerInOpcode, opcodeMap_none_iff⟩
  case systemToEscape => and_intros <;> rfl
  case jumpsAndPushes => and_intros <;> rfl
  case registerInOpcode => and_intros <;> rfl

end Sys2Proof
end

section
/-! Halting, `hlt`, `trap`, the illegal-instruction halt and the halted core (R111, R112, R113, R115). -/

namespace Sys2Proof.Machine

open Sys2Proof.Claims

/-! The illegal opcode. -/

/-- `halt(status, reason)` completes and changes the run state only (R12, R110). -/
theorem haltWith_haltsOnly (status : Word) (reason : HaltReason) (s : State) :
    ∃ t, haltWith status reason s = .next t ∧ HaltsOnly s t status reason :=
  ⟨_, rfl, rfl, rfl, fun _ => rfl, rfl, fun _ => rfl, rfl, rfl⟩

/-- The opcode byte alone makes an instruction illegal: the bytes after it play no part, nor whether there are any
(R92, R115). -/
theorem fetchExecute_of_illegal {cfg : Configuration} {s : State} (h : opcodeMap (s.mem.read s.pc.toNat) cfg = none) :
    fetchExecute s cfg = haltIllegal [s.mem.read s.pc.toNat] s := by
  obtain ⟨tail, htail⟩ := fetchBytes_cons s.mem s.pc
  simp only [fetchExecute, htail, decode_of_illegal h]

/-- Settles O7: a running core fetches, the illegal opcode byte goes to the illegal-instruction handler, and a halt
changes the run state only. -/
theorem illegalPrimaryOpcodeHalts : Obligations.IllegalPrimaryOpcodeHalts := by
  intro s hrun hop
  rw [step_of_running hrun, fetchExecute_of_illegal hop]
  exact haltWith_haltsOnly ..

/-! The halted core and the host's interface to it. -/

/-- The report on a halted core is its status (R41, R263). -/
theorem State.report_of_halted {s : State} {status : Word} {reason : HaltReason} (h : s.run = .halted status reason) :
    s.report = ⟨true, status⟩ := by
  simp only [State.report, h]

/-- The host's step returns the state that the core's step reaches, with the report on it (R263). -/
theorem hostStep_of_next {cfg : Configuration} {s t : State} (h : stepIn cfg s = .next t) :
    hostStep s cfg = .next (t, t.report) := by
  simp only [hostStep, h]

/-- What a completed host write did: the memory write, and nothing else (R72, R265). -/
theorem hostWrite_ok {n : Width} {a v : Word} {s t : State} (h : hostWrite n a v s = .ok t) :
    ∃ m, memWrite s.mem a n v = .ok m ∧ t = { s with mem := m } := by
  unfold hostWrite at h
  split at h
  · next m hm =>
    cases h
    exact ⟨m, hm, rfl⟩
  · cases h

/-- Settles O6: a halted core steps to itself, so the report is on the same state; of the host's two actions only the
reset writes the run state. -/
theorem haltedStepChangesNothing : Obligations.HaltedStepChangesNothing := by
  intro s status reason hrun
  have hstep : step s = .next s := stepIn_of_halted (by simp [hrun])
  refine ⟨hstep, ?hostStep, resetAction_run s, ?hostWrite⟩
  case hostStep => rw [hostStep_of_next hstep, State.report_of_halted hrun]
  case hostWrite =>
    intro n a v t hw
    obtain ⟨_, _, rfl⟩ := hostWrite_ok hw
    rfl

/-! The instructions of one byte. -/

/-- A handler of width 1 whose instruction depends on no operand decodes from its opcode byte alone (R80, R82). -/
theorem decodesN_of_width_one {h : Opcode} {i : Instr} (hw : h.format.width = 1)
    (hi : ∀ k operands, instrOf h k operands = i) : DecodesN h i := by
  intro op rest hm
  rw [decode_of_opcode hm (by omega), hi, hw]
  rfl

/-- Settles O9: `hlt` is the halt with status 0, and a halt changes the run state only. -/
theorem hltHalts : Obligations.HltHalts :=
  ⟨decodesN_of_width_one rfl fun _ _ => rfl, haltWith_haltsOnly 0 .hlt⟩

/-- Settles O10: `trap` has no branch but the fault. -/
theorem trapFaults : Obligations.TrapFaults :=
  ⟨decodesN_of_width_one rfl fun _ _ => rfl, fun _ => rfl⟩

end Sys2Proof.Machine
end

section
/-! The software interrupt: the gate I (R216), the vectored jump (R218), the illegal code (R212) and the services that need
no value of the host: exit, reset and video-flush (R224, R227, R228). -/

namespace Sys2Proof.Machine

open Sys2Proof.Claims

/-! The branches of `int` (R140) beside the one of a host service, `exec_int_of_runs`. -/

/-- With I clear `int` is a no-op of two bytes (R216). -/
theorem exec_int_of_flag_clear (code : Byte) {s : State} (h : s.flag .i = false) :
    exec (.intCode code) s = advance 2 s :=
  if_neg (ne_true_of_eq_false h)

/-- With I set a code of 0x80 or above takes its vector (R217). -/
theorem exec_int_of_vectored {code : Byte} {s : State} (hi : s.flag .i = true)
    (hc : Config.firstVectoredCode ≤ code) : exec (.intCode code) s = takeVector code s :=
  (if_pos hi).trans (if_pos hc)

/-- With I set a code below 0x80 that names no service halts with status 1 (R212). -/
theorem exec_int_of_no_service {code : Byte} {s : State} (hi : s.flag .i = true) (hc : code < 0x80)
    (hm : Config.hostServiceMap code = none) :
    exec (.intCode code) s = haltWith Config.illegalStatus (.illegalHwInterrupt code s.pc) s := by
  have hlt : ¬ Config.firstVectoredCode ≤ code := BitVec.not_le.mpr hc
  show execIntCode code s = _
  rw [execIntCode, if_pos hi, if_neg hlt, defaults_hostServiceMap, hm]

/-! The gate. -/

/-- A handler of width 2 whose instruction depends on its first operand byte alone decodes from the opcode byte and that
byte (R80, R88). -/
theorem decodesB_of_width_two {h : Opcode} {mk : Byte → Instr} (hw : h.format.width = 2)
    (hi : ∀ k b operands, instrOf h k (b :: operands) = mk b) : DecodesB h mk := by
  intro op b rest hm
  rw [decode_of_opcode hm (by simp [hw]), hi, hw]
  rfl

/-- What each flag reads where the flags byte is another state's with one flag written (R10, R31). -/
theorem State.flag_of_flags_eq_flagPut {s t : State} {f : Flag} {b : Bool} (h : t.flags = flagPut s.flags f b)
    (g : Flag) : t.flag g = if g = f then b else s.flag g := by
  rw [State.flag, h]
  exact flagGet_flagPut s.flags f g b

/-- The one instruction that changes I is a `ji` that finds it set, and it clears it: of the other writers of the flags
byte, `cmp` and the other clearing jumps leave I, and the reset service runs only with I set (R38, R216). -/
theorem exec_flag_i_ne {i : Instr} {s t : State} (h : exec i s = .next t) (hne : t.flag .i ≠ s.flag .i) :
    i.opcode = .jiT ∧ s.flag .i = true ∧ t.flag .i = false := by
  have hflags : t.flags ≠ s.flags := fun heq => hne (congrArg (flagGet · .i) heq)
  obtain ⟨-, -, hcmp, -⟩ | ⟨-, -, hje⟩ | ⟨-, -, hjc⟩ | ⟨-, -, hjn⟩ | ⟨hi, hset, hji⟩ | ⟨_, -, ⟨hset, -, -⟩, hreset⟩ :=
    onlyTheseInstructionsWriteFlags i s t h hflags
  · exact absurd hcmp hne
  · exact absurd (State.flag_of_flags_eq_flagPut hje .i) hne
  · exact absurd (State.flag_of_flags_eq_flagPut hjc .i) hne
  · exact absurd (State.flag_of_flags_eq_flagPut hjn .i) hne
  · exact ⟨hi, hset, State.flag_of_flags_eq_flagPut hji .i⟩
  · have hkept : t.flag .i = true := (congrArg (flagGet · .i) hreset).trans (flag_resetAction s .i)
    exact absurd (hkept.trans hset.symm) hne

/-- Settles O40: with I clear `int` is the advance, which changes pc only; I changes by a taken `ji` alone. -/
theorem intWithInterruptsOffOnlyAdvances : Obligations.IntWithInterruptsOffOnlyAdvances := by
  refine ⟨decodesB_of_width_two rfl fun _ _ _ => rfl, ?_, fun _ _ _ => exec_flag_i_ne⟩
  intro code s hi hpc
  rw [exec_int_of_flag_clear code hi]
  exact ⟨_, advance_of_le hpc, rfl, onlyChanges_setPc s _⟩

/-! The vector table. -/

/-- Entry `n` of the vector table belongs to code 0x80 + n (R218). -/
theorem vectorAddress_ofNat {n : Nat} (h : n < 128) :
    Config.firstVectoredCode ≤ BitVec.ofNat 8 (0x80 + n) ∧
      (vectorAddress (BitVec.ofNat 8 (0x80 + n))).toNat = 0xFF0000 + 3 * n := by
  have hcode : (BitVec.ofNat 8 (0x80 + n)).toNat = 0x80 + n := by
    rw [BitVec.toNat_ofNat]
    omega
  have hle : Config.firstVectoredCode ≤ BitVec.ofNat 8 (0x80 + n) := by
    rw [BitVec.le_def, hcode]
    exact Nat.le_add_right 0x80 n
  refine ⟨hle, ?_⟩
  rw [vectorAddress_toNat _ hle, hcode, Nat.add_sub_cancel_left]

/-- The bytes of the memory after `create` form the number 0 (R44, R51). -/
theorem bytesAt_nil (a n : Nat) : bytesAt [] a n = 0 := by
  induction n generalizing a with
  | zero => rfl
  | succ n ih => rw [bytesAt, ih]; rfl

/-- Settles O41: the vectored entry sets pc to the joined bytes of the entry, whose number is theirs, and nothing else. -/
theorem vectoredIntJumpsThroughTheTable : Obligations.VectoredIntJumpsThroughTheTable := by
  intro n hn
  refine ⟨fun s hi => ?_, bytesAt_nil _ 3⟩
  obtain ⟨hle, haddr⟩ := vectorAddress_ofNat hn
  rw [exec_int_of_vectored hi hle]
  refine ⟨_, takeVector_eq _ s hle, ?_, onlyChanges_setPc s _⟩
  rw [State.setPc_pc, joinBytes_toNat, bytesAt_three, haddr]

/-! The illegal code. -/

/-- The codes that the default HOST_SERVICE_MAP gives no service (R212, R223). -/
theorem hostServiceMap_none_iff : ∀ code : Byte, Config.hostServiceMap code = none ↔ 0x08 ≤ code := by
  decide

/-- Settles O42: such an `int` is a halt, and a halt changes the run state only. -/
theorem illegalInterruptCodeHalts : Obligations.IllegalInterruptCodeHalts := by
  refine ⟨fun code s hi hc hm => ?_, hostServiceMap_none_iff⟩
  rw [exec_int_of_no_service hi hc hm]
  exact haltWith_haltsOnly ..

/-! Host services. -/

/-- Settles O43: a pop moves SP only and a halt changes the run state only; a faulting pop ends the service. -/
theorem exitServiceHalts : Obligations.ExitServiceHalts := by
  intro code s hr
  rw [exec_int_of_runs hr]
  refine ⟨fun v u hpop => ?popped, fun f hpop => withPop_of_error hpop⟩
  have hexit : hostService .exit s = haltWith v (.exit v) u := withPop_of_ok hpop
  obtain ⟨t, ht, hhalt⟩ := haltWith_haltsOnly v (.exit v) u
  obtain ⟨-, -, rfl⟩ := stackPop_ok hpop
  refine ⟨t, hexit.trans ht, hhalt, ?sp, hhalt.pcKept, fun r hne => ?registers, hhalt.flagsKept, hhalt.memory⟩
  case sp => rw [hhalt.registers, State.reg_setReg, if_pos rfl]
  case registers => rw [hhalt.registers, State.reg_setReg, if_neg hne]

/-- Settles O46: the service's next state is the reset action's, which is the host's reset. -/
theorem resetServiceResets : Obligations.ResetServiceResets := by
  intro code s hr
  rw [exec_int_of_runs hr]
  exact ⟨resetAction s, rfl, rfl, resetAction_pc s, resetAction_run s, fun _ => rfl⟩

/-- Recording an event and going past the `int` is all that a service does which has no other effect (R43, R232). -/
theorem serviceOnly_record_setPc (s : State) (e : HostEvent) :
    ServiceOnly s ((s.record e).setPc (s.pc + 2)) [] [] e 0 :=
  ⟨rfl, fun _ _ => rfl, rfl, fun _ _ => rfl, rfl, rfl, rfl⟩

/-- Settles O47: the service records the request and advances. -/
theorem videoFlushOnlyRecords : Obligations.VideoFlushOnlyRecords := by
  intro code s hr hpc
  rw [exec_int_of_runs hr]
  exact ⟨_, advance_of_le (s := s.record .displayFlush) hpc, serviceOnly_record_setPc s .displayFlush⟩

end Sys2Proof.Machine
end

section
/-! The host's reset (R261). -/

namespace Sys2Proof.Machine

open Sys2Proof.Claims

/-- The host's `reset()` is the reset action (R261), so the facts of `resetAction` are the facts of `hostReset`. -/
@[simp] theorem hostReset_eq_resetAction (s : State) (cfg : Configuration) : hostReset s cfg = resetAction s cfg := rfl

/-- The six general and index registers read zero after the reset action (R261). -/
theorem reg_resetAction_eq_zero {cfg : Configuration} (s : State) {r : Reg} (hsp : r ≠ .sp) (hbp : r ≠ .bp) :
    (resetAction s cfg).reg r = 0 := by
  cases r with
  | sp => exact absurd rfl hsp
  | bp => exact absurd rfl hbp
  | ax | bx | cx | dx | si | gi => exact reg_resetAction s _

/-- Settles O56, from what each register and each flag reads after the reset action. The obligation's own name is taken by
the model's `resetAction`. -/
theorem resetActionGivesResetValues : Obligations.ResetAction := by
  intro s
  rw [hostReset_eq_resetAction]
  refine ⟨fun r hr => ?sixRegisters, reg_resetAction s .sp, reg_resetAction s .bp, resetAction_pc s,
    resetAction_flags s, flag_resetAction s .i, flag_resetAction s .z, flag_resetAction s .n, flag_resetAction s .c,
    resetAction_run s, fun _ => rfl, resetAction_trace s⟩
  case sixRegisters =>
    have hsp : r ≠ .sp := ne_of_mem_of_not_mem hr (by decide)
    have hbp : r ≠ .bp := ne_of_mem_of_not_mem hr (by decide)
    exact reg_resetAction_eq_zero s hsp hbp

end Sys2Proof.Machine
end

section
/-! Decoding undoes encoding under every admitted configuration, and encoding undoes decoding but for the ignored operand
bits (30_encoding.md). -/

namespace Sys2Proof

open Machine (Configuration)

/-! The shape of an encoding. -/

/-- The register index that the encoder adds to the base opcode: form register-in-opcode alone has one (R84). -/
def Instr.inOpcodeIndex (i : Instr) (cfg : Configuration := Config.defaults) : BitVec 3 :=
  match i with
  | .movRImm r _ | .movRByteA r _ | .movRWordA r _ | .movByteAR _ r | .movWordAR _ r => indexOfReg r cfg
  | .addRImm r _ | .addRByteA r _ | .addRWordA r _ | .cmpRImm r _ => indexOfReg r cfg
  | _ => 0

/-- An encoding begins with its handler's base opcode plus the register index in the opcode (R84, R90). -/
theorem encode_eq_cons (i : Instr) (cfg : Configuration) :
    encode i cfg = (baseOpcode i.opcode cfg + (i.inOpcodeIndex cfg).setWidth 8) :: (encode i cfg).tail := by
  cases i
  case movRImm | movRByteA | movRWordA | movByteAR | movWordAR | addRImm | addRByteA | addRWordA | cmpRImm => rfl
  all_goals exact congrArg (· :: _) (BitVec.add_zero _).symm

/-- The operand bytes of an encoding fill its width (R89). -/
theorem encode_tail_length (i : Instr) (cfg : Configuration) :
    (encode i cfg).tail.length = i.opcode.format.width - 1 := by
  cases i <;> rfl

/-- Only form register-in-opcode adds an index to the opcode (R84). -/
theorem Instr.inOpcodeIndex_eq_zero_or (i : Instr) (cfg : Configuration) :
    i.opcode.format = .oa ∨ i.inOpcodeIndex cfg = 0 := by
  cases i
  case movRImm | movRByteA | movRWordA | movByteAR | movWordAR | addRImm | addRByteA | addRWordA | cmpRImm =>
    exact .inl rfl
  all_goals exact .inr rfl

/-- The operand fields of an encoding, read back, make the instruction (R82 to R88). -/
theorem instrOf_encode_tail {cfg : Configuration} (hr : ∀ r : Reg, ∃ k : BitVec 3, cfg.regOfIndex k = r) (i : Instr)
    (rest : List Byte) : instrOf i.opcode (i.inOpcodeIndex cfg) ((encode i cfg).tail ++ rest) cfg = i := by
  cases i
  case hlt | trap | intCode | escapeE => rfl
  case incR r | decR r | pushR r => exact congrArg _ (regField_regByte hr r)
  case addRxRy x y | movRxRy x y | lodbRxRy x y | lodwRxRy x y | lodhRxRy x y =>
    exact congrArg₂ _ (clusterX_clusterByte hr x y) (clusterY_clusterByte hr x y)
  case incByteA v | decByteA v | incWordA v | decWordA v | jmpT v | jeT v | jneT v | jcT v | jncT v | jsT v | jnT v |
      jiT v | jniT v | pushImm v =>
    exact congrArg _ (imm24_immBytes v rest)
  case movRImm r v | movRByteA r v | movRWordA r v | addRImm r v | addRByteA r v | addRWordA r v | cmpRImm r v =>
    exact congrArg₂ _ (regOfIndex_indexOfReg hr r) (imm24_immBytes v rest)
  case movByteAR v r | movWordAR v r =>
    exact congrArg₂ _ (imm24_immBytes v rest) (regOfIndex_indexOfReg hr r)

/-- Decoding an encoded well-formed instruction gives it back and leaves the bytes after it (R8). -/
theorem decode_encode {cfg : Configuration} (hv : cfg.Valid) {i : Instr} (hw : i.wellFormed cfg = true)
    (rest : List Byte) : decode (encode i cfg ++ rest) cfg = .ok (i, rest) := by
  obtain ⟨row, hrow, hopcode, hbase⟩ := opcodeRow_baseOpcode hv hw (i.inOpcodeIndex_eq_zero_or cfg)
  have hindex : opcodeIndex (baseOpcode i.opcode cfg + (i.inOpcodeIndex cfg).setWidth 8) row = i.inOpcodeIndex cfg := by
    rw [hbase, opcodeIndex_add]
  have hlength := encode_tail_length i cfg
  have henough : row.opcode.format.width ≤ ((encode i cfg).tail ++ rest).length + 1 := by
    rw [hopcode, List.length_append]
    omega
  rw [encode_eq_cons, List.cons_append, decode_of_row hrow henough, hindex, hopcode,
    instrOf_encode_tail hv.everyRegister, ← hlength, List.drop_left]

/-- Settles O2: the opcode byte selects the handler's row, and the fields are read back; the default configuration is one
the spec admits. -/
theorem decodeOfEncode : Obligations.DecodeOfEncode :=
  ⟨fun _ _ rest hv hw => decode_encode hv hw rest, fun _ rest hw => decode_encode defaults_valid hw rest⟩

/-! The bytes that a decoded instruction's encoding has, under the default configuration. -/

/-- Under the default `REG_INDEX` the index of the register that an index names is that index (R21). -/
theorem indexOfReg_regOfIndex : ∀ k : BitVec 3, indexOfReg (Config.regOfIndex k) = k := by
  decide

/-- The opcode byte is the base of its handler plus the register index it holds (R84, R90). -/
theorem baseOpcode_add_index : ∀ op : Byte, ∀ o, opcodeMap op = some o →
    baseOpcode o + (if o.format = .oa then op.extractLsb' 0 3 else 0).setWidth 8 = op := by
  have h : ∀ op : Byte, (opcodeMap op).all (fun o =>
      baseOpcode o + (if o.format = .oa then op.extractLsb' 0 3 else 0).setWidth 8 == op) = true := by
    decide +kernel
  intro op o ho
  simpa [ho] using h op

/-- The index that the encoder puts into the opcode of a decoded instruction is the one read from it (R84). -/
theorem inOpcodeIndex_instrOf (o : Opcode) (k : BitVec 3) (operands : List Byte) :
    (instrOf o k operands).inOpcodeIndex = if o.format = .oa then k else 0 := by
  cases o
  case movRImm | movRByteA | movRWordA | movByteAR | movWordAR | addRImm | addRByteA | addRWordA | cmpRImm =>
    exact indexOfReg_regOfIndex k
  all_goals rfl

/-- The register byte written for a register byte read has bits 7:3 zero (R83). -/
theorem regByte_regField (b : Byte) : regByte (regField b) = b &&& 0x07 := by
  have hmask : ∀ b : Byte, (b.extractLsb' 0 3).setWidth 8 = b &&& 0x07 := by decide +kernel
  rw [regByte, regField, Machine.defaults_regOfIndex, indexOfReg_regOfIndex, hmask]

/-- The cluster byte written for a cluster byte read has bits 7:6 zero (R87). -/
theorem clusterByte_clusterX_clusterY (b : Byte) : clusterByte (clusterX b) (clusterY b) = b &&& 0x3F := by
  have hmask : ∀ b : Byte, (0#2 ++ b.extractLsb' 3 3 ++ b.extractLsb' 0 3 : BitVec (2 + 3 + 3)) = b &&& 0x3F := by
    decide +kernel
  rw [clusterByte, clusterX, clusterY, Machine.defaults_regOfIndex, indexOfReg_regOfIndex, indexOfReg_regOfIndex]
  exact hmask b

/-- The three bytes written for a 24-bit field are the ones read (R85). -/
theorem immBytes_imm24 (b0 b1 b2 : Byte) (rest : List Byte) : immBytes (imm24 (b0 :: b1 :: b2 :: rest)) = [b0, b1, b2] := by
  simp [immBytes, imm24]

/-- The operand bytes written for a decoded instruction are the ones read, their ignored bits zero (R83, R85, R87). -/
theorem encode_instrOf_tail {o : Opcode} (k : BitVec 3) {tail : List Byte} (hl : o.format.width ≤ tail.length + 1) :
    (encode (instrOf o k tail)).tail = (tail.take (o.format.width - 1)).map (Claims.significantBits o.format) := by
  cases o
  case hlt | trap => rfl
  case incR | decR | pushR =>
    match tail, hl with
    | b :: _, _ => exact congrArg (fun x => [x]) (regByte_regField b)
  case addRxRy | movRxRy | lodbRxRy | lodwRxRy | lodhRxRy =>
    match tail, hl with
    | b :: _, _ => exact congrArg (fun x => [x]) (clusterByte_clusterX_clusterY b)
  case intCode | escapeE =>
    match tail, hl with
    | _ :: _, _ => rfl
  all_goals
    match tail, hl with
    | b0 :: b1 :: b2 :: rest, _ => exact immBytes_imm24 b0 b1 b2 rest

/-- Settles O3: the opcode byte is the handler's base with the index it holds, and the operand bytes come back but for
their ignored bits. -/
theorem encodeOfDecode : Obligations.EncodeOfDecode := by
  intro op tail rest i h
  obtain ⟨_, _, o, hbytes, hmap, hwidth, rfl, rfl⟩ := decode_ok_opcode h
  cases hbytes
  refine ⟨tail.take (o.format.width - 1), (List.take_append_drop _ tail).symm, ?_⟩
  rw [encode_eq_cons, inOpcodeIndex_instrOf, instrOf_opcode, baseOpcode_add_index op o hmap,
    encode_instrOf_tail _ hwidth]

end Sys2Proof
end

section
/-! The invariant along steps, along runs and in every state that the host's interfaces reach, and the two flags that no
step sets (10_state.md section 3). -/

namespace Sys2Proof.Machine

/-! The flags that no step sets. -/

/-- No instruction sets C: `cmp` leaves it, a clearing jump clears and the reset service resets it (R36, R38). -/
theorem exec_flag_c_of_set {i : Instr} {s t : State} (h : exec i s = .next t) (hc : t.flag .c = true) :
    s.flag .c = true := by
  by_contra hclear
  have hflags : t.flags ≠ s.flags := fun heq => hclear ((congrArg (flagGet · .c) heq).symm.trans hc)
  obtain ⟨-, hcmp, -, -⟩ | ⟨-, -, hje⟩ | ⟨-, hset, -⟩ | ⟨-, -, hjn⟩ | ⟨-, -, hji⟩ | ⟨_, -, -, hreset⟩ :=
    onlyTheseInstructionsWriteFlags i s t h hflags
  · exact hclear (hcmp.symm.trans hc)
  · exact hclear ((State.flag_of_flags_eq_flagPut hje .c).symm.trans hc)
  · exact hclear hset
  · exact hclear ((State.flag_of_flags_eq_flagPut hjn .c).symm.trans hc)
  · exact hclear ((State.flag_of_flags_eq_flagPut hji .c).symm.trans hc)
  · have hkept : t.flag .c = false := (congrArg (flagGet · .c) hreset).trans (flag_resetAction s .c)
    exact absurd hc (ne_true_of_eq_false hkept)

/-- Settles O52: a step is one instruction, a halt or nothing, and only an instruction writes flags. -/
theorem carryIsNeverSet : Obligations.CarryIsNeverSet := by
  intro s t h hc
  obtain rfl | ⟨-, i, hi⟩ | ⟨-, _, rfl⟩ := step_next h
  · exact hc
  · exact exec_flag_c_of_set hi hc
  · exact hc

/-- Settles O51: an instruction that changes I found it set. -/
theorem interruptEnableStaysClear : Obligations.InterruptEnableStaysClear := by
  intro s t h hclear
  obtain rfl | ⟨-, i, hi⟩ | ⟨-, _, rfl⟩ := step_next h
  · exact hclear
  · by_contra hset
    obtain ⟨-, hwas, -⟩ := exec_flag_i_ne hi fun heq => hset (heq.trans hclear)
    exact absurd hclear (ne_false_of_eq_true hwas)
  · exact hclear

/-! The invariant. -/

/-- `cmp`'s flag writes keep the invariant: they leave C and the reserved bits (R36, R37, R155). -/
theorem State.Inv.setCompareFlags {s : State} (h : s.Inv) (v w : Word) : (s.setCompareFlags v w).Inv :=
  (h.setFlag .z _ nofun).setFlag .n _ nofun

/-- Every completed `int` keeps the invariant. -/
theorem IntEffect.inv {s t : State} {code : Byte} (h : IntEffect s code t) (hs : s.Inv) : t.Inv := by
  cases h with
  | off | vectored => exact hs.setPc _
  | illegal => exact hs.run rfl
  | exited _ hp => exact (hs.pop hp).run (beq_self_eq_true _)
  | blocked => exact hs
  | consoleRead _ hp => exact ((hs.push hp).record _).drawn.setPc _
  | consoleWrite _ hp => exact ((hs.pop hp).record _).setPc _
  | reset => exact hs.resetAction
  | event => exact (hs.record _).setPc _
  | draw => exact ((hs.setReg _ _).record _).drawn.setPc _

/-- Every completed instruction keeps the invariant. -/
theorem Effect.inv {s t : State} {i : Instr} (h : Effect s i t) (hs : s.Inv) : t.Inv := by
  cases h with
  | halt _ _ _ hc => exact hs.run hc
  | register => exact (hs.setReg _ _).setPc _
  | autoIncrement => exact ((hs.setReg _ _).setReg _ _).setPc _
  | compare => exact (hs.setCompareFlags _ _).setPc _
  | store hm => exact (hs.mem (memWrite_wf hs.memory hm)).setPc _
  | push hp => exact (hs.push hp).setPc _
  | jump => exact hs.setPc _
  | jumpClearing => exact (hs.setFlag _ _ fun _ => rfl).setPc _
  | int hint => exact hint.inv hs

/-- Settles O53: every shape of a completed instruction is made of updates that keep the invariant. -/
theorem stepKeepsTheInvariant : Obligations.StepKeepsTheInvariant := by
  intro s t hs h
  obtain rfl | ⟨-, i, hi⟩ | ⟨-, _, rfl⟩ := step_next h
  · exact hs
  · exact (exec_effect hi).inv hs
  · exact hs.run rfl

/-- The zero-filled state meets the invariant (R44). -/
theorem State.create_inv : State.create.Inv := ⟨rfl, rfl, rfl, rfl⟩

/-- Settles O54: the state after reset is the reset action on the zero-filled state. -/
theorem resetMeetsTheInvariant : Obligations.ResetMeetsTheInvariant := State.create_inv.resetAction

/-- A host write keeps the invariant: it writes memory only (R265). -/
theorem State.Inv.hostWrite {s t : State} {n : Width} {a v : Word} (hs : s.Inv)
    (h : Sys2Proof.Machine.hostWrite n a v s = .ok t) : t.Inv := by
  obtain ⟨_, hm, rfl⟩ := hostWrite_ok h
  exact hs.mem (memWrite_wf hs.memory hm)

/-- Every state that the host's interfaces reach meets the invariant. -/
theorem Reachable.inv {s : State} (h : Reachable s) : s.Inv := by
  induction h with
  | create => exact State.create_inv
  | hostWrite _ hw ih => exact ih.hostWrite hw
  | reset _ ih => exact ih.resetAction
  | step _ hstep ih => exact stepKeepsTheInvariant _ _ ih hstep

/-- Settles O55: the invariant has C clear, which is what the two jumps on C test. -/
theorem reachableStatesMeetTheInvariant : Obligations.ReachableStatesMeetTheInvariant := by
  intro s hs
  refine ⟨hs.inv, fun target t h => ?jc, fun target => ?jnc⟩
  case jc =>
    obtain ⟨hset, -⟩ | ⟨-, -, rfl⟩ := jumpClearing_next h
    · exact absurd hs.inv.carry (ne_false_of_eq_true hset)
    · rfl
  case jnc => exact ⟨_, if_pos hs.inv.carry, rfl⟩

/-! Runs. -/

/-- A run keeps the invariant. -/
theorem core_run_inv {k : Nat} {s t : State} (hs : s.Inv) (h : Sys2Proof.core.run k s = .next t) : t.Inv := by
  induction k generalizing s with
  | zero =>
    cases h
    exact hs
  | succ k ih =>
    obtain ⟨u, hstep, hrun⟩ := core_run_succ_next h
    exact ih (stepKeepsTheInvariant s u hs hstep) hrun

/-- A halted core's runs stay where they are (R111). -/
theorem core_run_of_halted {s : State} (h : s.run ≠ .running) (k : Nat) : Sys2Proof.core.run k s = .next s := by
  induction k with
  | zero => rfl
  | succ k ih => rw [core_run_of_next (stepIn_of_halted h), ih]

/-- Settles O60, by induction on the number of steps of the run. -/
theorem safeRunsKeepTheInvariant : Obligations.SafeRunsKeepTheInvariant := by
  refine ⟨fun k s hs hsafe => ?_, fun k s h => ⟨⟨s, core_run_of_halted h k⟩, core_run_of_halted h k⟩⟩
  obtain ⟨t, ht⟩ := hsafe
  exact ⟨t, ht, core_run_inv hs ht⟩

/-! The host's `run` (R264). -/

/-- The report on a running core is no halt and status 0 (R41, R263). -/
theorem State.report_of_running {s : State} (h : s.run = .running) : s.report = ⟨false, 0⟩ := by
  simp only [State.report, h]

/-- `run` on a step that reaches a halt returns the report on it. -/
theorem hostRun_of_halt {k : Nat} {s t : State} {status : Word} {reason : HaltReason} (hstep : step s = .next t)
    (ht : t.run = .halted status reason) : hostRun (k + 1) s = some (.next (t, ⟨true, status⟩)) := by
  simp only [hostRun, stepIn_defaults, hstep, State.report_of_halted ht, if_true]

/-- `run` on a step that reaches no halt goes on from there. -/
theorem hostRun_of_running {k : Nat} {s t : State} (hstep : step s = .next t) (ht : t.run = .running) :
    hostRun (k + 1) s = hostRun k t := by
  simp only [hostRun, stepIn_defaults, hstep, State.report_of_running ht, Bool.false_eq_true, if_false]

/-- `run` returns a state only after a first step that completed. -/
theorem hostRun_succ_next {k : Nat} {s t : State} {report : Report}
    (h : hostRun (k + 1) s = some (.next (t, report))) : ∃ u, step s = .next u := by
  simp only [hostRun, stepIn_defaults] at h
  split at h
  · next u hu => exact ⟨u, hu⟩
  · cases h
  · cases h

/-- What `run` returns is a halted state some steps on, with its status (R264). -/
theorem hostRun_sound {k : Nat} {s t : State} {report : Report} (h : hostRun k s = some (.next (t, report))) :
    ∃ j status reason, Sys2Proof.core.run j s = .next t ∧ t.run = .halted status reason ∧ report = ⟨true, status⟩ := by
  induction k generalizing s with
  | zero => cases h
  | succ k ih =>
    obtain ⟨u, hstep⟩ := hostRun_succ_next h
    cases hu : u.run with
    | running =>
      rw [hostRun_of_running hstep hu] at h
      obtain ⟨j, status, reason, hrun, hhalt⟩ := ih h
      exact ⟨j + 1, status, reason, (core_run_of_next hstep).trans hrun, hhalt⟩
    | halted status reason =>
      rw [hostRun_of_halt hstep hu] at h
      cases h
      exact ⟨1, status, reason, core_run_of_next hstep, hu, rfl⟩

/-- `run` returns whenever some number of steps reaches a halt (R264). -/
theorem hostRun_complete {j : Nat} {s t : State} {status : Word} {reason : HaltReason}
    (h : Sys2Proof.core.run j s = .next t) (ht : t.run = .halted status reason) :
    ∃ k, hostRun k s = some (.next (t, ⟨true, status⟩)) := by
  induction j generalizing s with
  | zero =>
    cases h
    exact ⟨1, hostRun_of_halt (stepIn_of_halted (by simp [ht])) ht⟩
  | succ j ih =>
    obtain ⟨u, hstep, hrun⟩ := core_run_succ_next h
    cases hu : u.run with
    | running =>
      obtain ⟨k, hk⟩ := ih hrun
      exact ⟨k + 1, (hostRun_of_running hstep hu).trans hk⟩
    | halted =>
      rw [core_run_of_halted (by simp [hu])] at hrun
      cases hrun
      exact ⟨1, hostRun_of_halt hstep ht⟩

/-- Settles O59, by induction on the fuel in one direction and on the number of steps in the other. -/
theorem runReportsTheHaltStatus : Obligations.RunReportsTheHaltStatus :=
  ⟨fun _ _ _ _ h => hostRun_sound h, fun _ _ _ _ _ h ht => hostRun_complete h ht⟩

end Sys2Proof.Machine
end

section
/-! The memory as data, the range check of the accessors, and the launch state of an image (20_memory.md,
70_reset_and_hazards.md). -/

namespace Sys2Proof.Machine

open Sys2Proof.Claims

/-! Canonical memories. -/

/-- The parts of the canonical form of a memory with a first entry. -/
theorem Memory.wfFrom_cons {lo k : Nat} {v : Byte} {m : Memory} (h : Memory.wfFrom lo ((k, v) :: m) = true) :
    lo ≤ k ∧ v ≠ unlistedByte ∧ m.wfFrom (k + 1) = true := by
  simp only [Memory.wfFrom, Bool.and_eq_true, decide_eq_true_eq, bne_iff_ne] at h
  obtain ⟨⟨⟨hlo, -⟩, hv⟩, hm⟩ := h
  exact ⟨hlo, hv, hm⟩

/-- An address below the first one that may be listed reads as unlisted. -/
theorem Memory.read_of_lt {lo a : Nat} {m : Memory} (h : m.wfFrom lo = true) (ha : a < lo) :
    m.read a = unlistedByte := by
  induction m generalizing lo with
  | nil => rfl
  | cons cell m ih =>
    obtain ⟨hlo, -, hm⟩ := Memory.wfFrom_cons h
    rw [Memory.read_cons, if_neg (by omega), ih hm (by omega)]

/-- The first entry's address reads a byte that is listed. -/
theorem Memory.read_head_ne {lo k : Nat} {v : Byte} {m : Memory} (h : Memory.wfFrom lo ((k, v) :: m) = true) :
    Memory.read ((k, v) :: m) k ≠ unlistedByte := by
  obtain ⟨-, hv, -⟩ := Memory.wfFrom_cons h
  rwa [Memory.read_cons, if_pos rfl]

/-- Of two canonical memories that read alike, none starts at a lower address than the other. -/
theorem Memory.head_le_of_read_eq {lo lo' k k' : Nat} {v v' : Byte} {m m' : Memory}
    (h : Memory.wfFrom lo ((k, v) :: m) = true) (h' : Memory.wfFrom lo' ((k', v') :: m') = true)
    (hread : ∀ a, Memory.read ((k, v) :: m) a = Memory.read ((k', v') :: m') a) : k' ≤ k := by
  by_contra hlt
  obtain ⟨-, hv', hm'⟩ := Memory.wfFrom_cons h'
  have hunlisted : Memory.read ((k', v') :: m') k = unlistedByte := by
    rw [Memory.read_cons, if_neg (by omega), Memory.read_of_lt hm' (by omega)]
  exact Memory.read_head_ne h ((hread k).trans hunlisted)

/-- Canonical memories that read alike are equal data. -/
theorem Memory.eq_of_read_eq {lo : Nat} {m m' : Memory} (h : m.wfFrom lo = true) (h' : m'.wfFrom lo = true)
    (hread : ∀ a, m.read a = m'.read a) : m = m' := by
  induction m generalizing lo m' with
  | nil =>
    cases m' with
    | nil => rfl
    | cons cell => exact absurd (hread cell.1).symm (Memory.read_head_ne h')
  | cons cell m ih =>
    obtain ⟨k, v⟩ := cell
    cases m' with
    | nil => exact absurd (hread k) (Memory.read_head_ne h)
    | cons cell' m' =>
      obtain ⟨k', v'⟩ := cell'
      obtain rfl : k = k' := Nat.le_antisymm (Memory.head_le_of_read_eq h' h fun a => (hread a).symm)
        (Memory.head_le_of_read_eq h h' hread)
      obtain ⟨-, -, hm⟩ := Memory.wfFrom_cons h
      obtain ⟨-, -, hm'⟩ := Memory.wfFrom_cons h'
      have hbyte : v = v' := by simpa [Memory.read_cons] using hread k
      have htail : ∀ a, Memory.read m a = Memory.read m' a := by
        intro a
        by_cases ha : k = a
        · rw [Memory.read_of_lt hm (by omega), Memory.read_of_lt hm' (by omega)]
        · simpa [Memory.read_cons, ha] using hread a
      rw [hbyte, ih hm hm' htail]

/-- Settles O18, by induction on the lists: the canonical form fixes the first entry and the rest. -/
theorem canonicalMemoriesAreEqual : Obligations.CanonicalMemoriesAreEqual :=
  fun _ _ h h' hread => Memory.eq_of_read_eq h h' hread

/-! Accesses past the top, and the host's accessors. -/

/-- Settles O17, from the range check of each accessor. -/
theorem accessPastTopFaults : Obligations.AccessPastTopFaults :=
  fun _ _ _ _ h => ⟨memRead_of_gt h, memWrite_of_gt h⟩

/-- A host write is the memory write, or its fault (R265). -/
theorem hostWrite_of_ok {n : Width} {a v : Word} {s : State} {m : Memory} (h : memWrite s.mem a n v = .ok m) :
    hostWrite n a v s = .ok { s with mem := m } := by
  simp only [hostWrite, h]

theorem hostWrite_of_error {n : Width} {a v : Word} {s : State} {f : Fault} (h : memWrite s.mem a n v = .error f) :
    hostWrite n a v s = .error f := by
  simp only [hostWrite, h]

/-- Settles O58: the host's accessors are the core's, on the memory alone. -/
theorem hostAccessorsTouchMemoryOnly : Obligations.HostAccessorsTouchMemoryOnly := by
  intro s n a v
  refine ⟨fun hin => ⟨memRead_of_le hin, ?write⟩,
    fun hout => ⟨memRead_of_gt hout, hostWrite_of_error (memWrite_of_gt hout)⟩⟩
  case write =>
    obtain ⟨m, hm⟩ := exists_memWrite_of_le s.mem v hin
    obtain ⟨-, -, hframe⟩ := memWrite_ok hm
    exact ⟨_, hostWrite_of_ok hm, bytesAt_of_memWrite hm, hframe, rfl⟩

/-! The launch state. -/

/-- Settles O57: loading writes memory only, cell by cell, and the reset leaves memory. -/
theorem launchState : Obligations.LaunchState := by
  refine ⟨fun image => ⟨?elsewhere, ?canonical, fun a hno => ?noCell⟩, fun image₁ image₂ a b hlast => ?lastCell⟩
  case elsewhere =>
    have hload : { loadImage image State.create with mem := [] } = State.create := loadImage_mem_only image State.create
    calc { State.launch image with mem := [] }
        = resetAction { loadImage image State.create with mem := [] } := rfl
      _ = resetAction State.create := by rw [hload]
      _ = State.reset := resetAction_create
  case canonical => exact loadImage_wf image State.create Memory.wf_nil
  case noCell => exact loadImage_read_of_no_cell image State.create a hno
  case lastCell =>
    show (loadImage (image₁ ++ (a, b) :: image₂) State.create).mem.read a.toNat = b
    rw [loadImage_append_cons, loadImage_read_of_no_cell _ _ _ hlast, Memory.read_write, if_pos rfl]

end Sys2Proof.Machine
end

section
/-! Fetching: the bytes at pc as they stand, the instruction that a step runs, and the fetch past the top of memory (R26,
R29, R69, R110). -/

namespace Sys2Proof.Machine

/-- The fetched bytes, as many of the four as lie inside the memory (R26, R29). -/
theorem fetchBytes_eq_map_range (m : Memory) (pc : Word) :
    fetchBytes m pc = (List.range (min 4 (0x1000000 - pc.toNat))).map fun k => m.read (pc.toNat + k) := by
  have hfilter : (List.range 4).filter (fun k => decide (pc.toNat + k < Config.memSize)) =
      List.range (min 4 (0x1000000 - pc.toNat)) := by
    rw [← List.Ico.zero_bot, ← List.Ico.zero_bot, ← List.Ico.filter_lt]
    refine List.filter_congr fun k _ => decide_eq_decide.mpr ?_
    rw [memSize_eq]
    omega
  rw [fetchBytes, hfilter]

/-- Byte `k` of the fetch is the memory's, where it lies inside the memory (R26, R69). -/
theorem fetchBytes_getElem? (m : Memory) (pc : Word) (k : Nat) : (fetchBytes m pc)[k]? =
    if k < 4 ∧ pc.toNat + k < 0x1000000 then some (m.read (pc.toNat + k)) else none := by
  rw [fetchBytes_eq_map_range, List.getElem?_map]
  split
  · rw [List.getElem?_range (by omega), Option.map_some]
  · rw [List.getElem?_eq_none (by rw [List.length_range]; omega), Option.map_none]

/-- A running core runs the instruction that the bytes at pc decode to (R110). -/
theorem stepIn_of_decode {cfg : Configuration} {s : State} {i : Instr} {rest : List Byte} (hrun : s.run = .running)
    (hd : decode (fetchBytes s.mem s.pc) cfg = .ok (i, rest)) : stepIn cfg s = execIn cfg i s := by
  rw [stepIn_of_running hrun]
  simp only [fetchExecute, hd]

/-- Settles O5: the step under a configuration, and the core's as the one under the default. -/
theorem stepRunsTheDecodedInstruction : Obligations.StepRunsTheDecodedInstruction :=
  ⟨fun s i _ hrun hd => (stepIn_of_decode hrun hd).trans (execIn_defaults i s), fetchBytes_getElem?,
    fun _ _ _ _ hrun hd => stepIn_of_decode hrun hd, stepIn_defaults, execIn_defaults⟩

/-- Settles O11: the fetch gives fewer bytes than the handler's width, and the decoder finds it truncated. -/
theorem fetchPastTopFaults : Obligations.FetchPastTopFaults := by
  intro s h hrun hmap hout
  obtain ⟨tail, htail⟩ := fetchBytes_cons s.mem s.pc
  have hlength : tail.length + 1 = min 4 (0x1000000 - s.pc.toNat) := by
    rw [← List.length_cons, ← htail, fetchBytes_eq_map_range, List.length_map, List.length_range]
  have hwidths : h.format.width = 1 ∨ h.format.width = 2 ∨ h.format.width = 4 := h.format.width_eq_one_or_two_or_four
  have hpc := s.pc.isLt
  have hshort : decode (fetchBytes s.mem s.pc) = .error (.truncated h.format.width) := by
    rw [htail, decode_of_short hmap (by omega)]
  rw [step_of_running hrun]
  simp only [fetchExecute, hshort]

end Sys2Proof.Machine
end

section
/-! The stack: a push, a pop, the pop after a push, the push instructions and the stack wraps (R57 to R60, R200, R201). -/

namespace Sys2Proof.Machine

open Sys2Proof.Claims

/-! A completed push and a completed pop. -/

/-- Byte `k` of a value lies `k` below the top of its slot (R57). -/
theorem writeSlot_read_sub (m : Memory) {t k : Nat} (v : Word) (ht : 3 ≤ t) (hk : k < 3) :
    (writeSlot m t v).read (t - k) = byteOf v k := by
  rw [writeSlot_read]
  obtain rfl | rfl | rfl : k = 0 ∨ k = 1 ∨ k = 2 := by omega
  · rw [if_neg (by omega), if_neg (by omega), if_pos (Nat.sub_zero t)]
  · rw [if_neg (by omega), if_pos rfl]
  · rw [if_pos rfl]

/-- A push with SP at 3 or above completes: SP moves down by 3, and the slot below the old SP holds the value, its least
significant byte highest (R57, R58). -/
theorem stackPush_completes (v : Word) {s : State} (hsp : 3 ≤ (s.reg .sp).toNat) :
    ∃ t, stackPush v s = .ok t ∧ t.reg .sp = s.reg .sp - 3 ∧
      (∀ k < 3, t.mem.read ((s.reg .sp).toNat - k) = byteOf v k) ∧ t.pc = s.pc ∧
      OnlyChanges s t [.sp] [] [(s.reg .sp).toNat, (s.reg .sp).toNat - 1, (s.reg .sp).toNat - 2] :=
  ⟨_, stackPush_of_le hsp, by rw [State.reg_setReg, if_pos rfl], fun _ hk => writeSlot_read_sub s.mem v hsp hk, rfl,
    onlyChanges_push s v⟩

/-- A register write alone changes that register only (R10). -/
theorem onlyChanges_setReg (s : State) (r : Reg) (v : Word) : OnlyChanges s (s.setReg r v) [r] [] [] :=
  onlyChanges_setReg_setPc s r v s.pc

/-- A pop with SP at 0xFFFFFC or below completes: it reads the slot below SP plus 3 and moves SP there (R57, R59). -/
theorem stackPop_completes {s : State} (hsp : (s.reg .sp).toNat ≤ 0xFFFFFC) :
    ∃ t, stackPop s = .ok (joinBytes (s.mem.read ((s.reg .sp).toNat + 3)) (s.mem.read ((s.reg .sp).toNat + 2))
        (s.mem.read ((s.reg .sp).toNat + 1)), t) ∧
      t.reg .sp = s.reg .sp + 3 ∧ t.pc = s.pc ∧ OnlyChanges s t [.sp] [] [] :=
  ⟨_, stackPop_of_le hsp, by rw [State.reg_setReg, if_pos rfl], rfl, onlyChanges_setReg s .sp _⟩

/-- Settles O20: the popped word is the sum of its bytes. -/
theorem popReadsTheSlot : Obligations.PopReadsTheSlot := by
  intro s hsp
  obtain ⟨t, hpop, hreg, hpc, honly⟩ := stackPop_completes hsp
  exact ⟨_, t, hpop, hreg, joinBytes_toNat .., hpc, honly⟩

/-- Settles O19: the pop's SP plus 3 is the push's SP, so it reads the bytes that the push wrote. -/
theorem pushThenPop : Obligations.PushThenPop := by
  intro v s hsp
  obtain ⟨t, hpush, hlow, hbytes, hpc, honly⟩ := stackPush_completes v hsp
  have h0 := hbytes 0 (by omega)
  have h1 := hbytes 1 (by omega)
  have h2 := hbytes 2 (by omega)
  have hnat : (t.reg .sp).toNat = (s.reg .sp).toNat - 3 := by
    rw [hlow]
    bv_omega
  obtain ⟨u, hpop, hhigh, -, -⟩ := stackPop_completes (s := t) (by omega)
  have hslot0 : (t.reg .sp).toNat + 3 = (s.reg .sp).toNat - 0 := by omega
  have hslot1 : (t.reg .sp).toNat + 2 = (s.reg .sp).toNat - 1 := by omega
  have hslot2 : (t.reg .sp).toNat + 1 = (s.reg .sp).toNat - 2 := by omega
  rw [hslot0, hslot1, hslot2, h0, h1, h2, joinBytes_byteOf] at hpop
  have hrestored : u.reg .sp = s.reg .sp := by rw [hhigh, hlow, BitVec.sub_add_cancel]
  exact ⟨t, u, hpush, hpop, hlow, hrestored, h0, h1, h2, hpc, honly⟩

/-! The push instructions. -/

/-- A change of pc counts for nothing in `OnlyChanges`. -/
theorem OnlyChanges.setPc {s t : State} {regs : List Reg} {flags : List Flag} {bytes : List Nat}
    (h : OnlyChanges s t regs flags bytes) (p : Word) : OnlyChanges s (t.setPc p) regs flags bytes :=
  ⟨h.registers, h.flagBits, h.reservedBits, h.memory, h.runState, h.traceKept, h.drawsKept⟩

/-- A push instruction of width `w` that neither wraps SP nor passes the top of memory completes (R200, R201). -/
theorem withPush_advance_completes (v : Word) {w : Nat} {s : State} (hsp : 3 ≤ (s.reg .sp).toNat)
    (hw : s.pc.toNat + w ≤ 0xFFFFFF) :
    ∃ t, withPush v s (advance w) = .next t ∧ t.reg .sp = s.reg .sp - 3 ∧ t.pc = s.pc + BitVec.ofNat 24 w ∧
      (∀ k < 3, t.mem.read ((s.reg .sp).toNat - k) = byteOf v k) ∧
      OnlyChanges s t [.sp] [] [(s.reg .sp).toNat, (s.reg .sp).toNat - 1, (s.reg .sp).toNat - 2] := by
  obtain ⟨u, hpush, hlow, hbytes, hpc, honly⟩ := stackPush_completes v hsp
  rw [withPush_of_ok hpush, advance_of_le (by rwa [hpc]), hpc]
  exact ⟨_, rfl, hlow, rfl, hbytes, honly.setPc _⟩

/-! The wraps. -/

/-- Settles O21: a push or a pop that wraps ends the instruction, and console-read asks the host before it pushes. -/
theorem stackWrapFaults : Obligations.StackWrapFaults := by
  refine ⟨fun s v r hsp => ?pushes, fun s code hsp hr => ?pops, fun s code hsp hr => ?consoleRead⟩
  case pushes => exact ⟨withPush_of_error (stackPush_of_lt hsp), withPush_of_error (stackPush_of_lt hsp)⟩
  case pops =>
    obtain hr | hr := hr
    · exact (exec_int_of_runs hr).trans (withPop_of_error (stackPop_of_gt hsp))
    · exact (exec_int_of_runs hr).trans (withPop_of_error (stackPop_of_gt hsp))
  case consoleRead =>
    rw [exec_int_of_runs hr]
    show serviceConsoleRead (Config.consoleIn s.draws) s = _
    cases Config.consoleIn s.draws with
    | none => rfl
    | some b => exact withPush_of_error (stackPush_of_lt hsp)

end Sys2Proof.Machine
end

section
/-! The operand forms: how each format decodes under the default map (R83 to R89), and what a register write, a load, a
store, a read-modify-write, an auto-increment load and a conditional jump do when they complete. -/

namespace Sys2Proof.Machine

open Sys2Proof.Claims

/-! Decoding, format by format. -/

/-- A handler of format R decodes with the register of bits 2:0 (R83). -/
theorem decodesR_of_format {h : Opcode} {mk : Reg → Instr} (hf : h.format = .r)
    (hi : ∀ k operands, instrOf h k operands = mk (regField (operands.headD 0))) : DecodesR h mk :=
  decodesB_of_width_two (congrArg Format.width hf) fun k b operands => hi k (b :: operands)

/-- A handler of format C decodes with the registers of bits 5:3 and 2:0 (R87). -/
theorem decodesC_of_format {h : Opcode} {mk : Reg → Reg → Instr} (hf : h.format = .c)
    (hi : ∀ k operands, instrOf h k operands = mk (clusterX (operands.headD 0)) (clusterY (operands.headD 0))) :
    DecodesC h mk :=
  decodesB_of_width_two (congrArg Format.width hf) fun k b operands => hi k (b :: operands)

/-- A handler of width 4 takes its three operand bytes (R80, R85). -/
theorem decode_of_width_four {h : Opcode} {op : Byte} (v : Word) (rest : List Byte) (hw : h.format.width = 4)
    (hm : opcodeMap op = some h) :
    decode (op :: (immBytes v ++ rest)) = .ok (instrOf h (op.extractLsb' 0 3) (immBytes v ++ rest), rest) := by
  have hlength : h.format.width ≤ (immBytes v ++ rest).length + 1 := by
    simp [hw, immBytes]
  rw [decode_of_opcode hm hlength, hw]
  rfl

/-- A handler of format A decodes with the 24-bit field (R85). -/
theorem decodesA_of_format {h : Opcode} {mk : Word → Instr} (hf : h.format = .a)
    (hi : ∀ k operands, instrOf h k operands = mk (imm24 operands)) : DecodesA h mk := by
  intro op v rest hm
  have hd := decode_of_width_four v rest (congrArg Format.width hf) hm
  rwa [hi, imm24_immBytes] at hd

/-- A handler of format OA decodes with the register in the opcode and the 24-bit field (R84, R85). -/
theorem decodesOA_of_format {h : Opcode} {mk : Reg → Word → Instr} (hf : h.format = .oa)
    (hi : ∀ k operands, instrOf h k operands = mk (Config.regOfIndex k) (imm24 operands)) : DecodesOA h mk := by
  intro op v rest hm
  have hd := decode_of_width_four v rest (congrArg Format.width hf) hm
  rwa [hi, imm24_immBytes] at hd

/-! Completed operand forms. -/

/-- A register write that goes on past its instruction (R14). -/
theorem setRegAdvance_completes {w : Nat} (r : Reg) (v : Word) {s : State} (hw : s.pc.toNat + w ≤ 0xFFFFFF) :
    ∃ t, setRegAdvance w r v s = .next t ∧ t.reg r = v ∧ t.pc = s.pc + BitVec.ofNat 24 w ∧ OnlyChanges s t [r] [] [] :=
  ⟨_, setRegAdvance_of_le hw, by rw [State.reg_setPc, State.reg_setReg, if_pos rfl], rfl,
    onlyChanges_setReg_setPc s r v _⟩

/-- Where pc cannot advance, a register write raises `PcWrap` (R30). -/
theorem setRegAdvance_of_gt {w : Nat} {r : Reg} {v : Word} {s : State} (hw : 0xFFFFFF < s.pc.toNat + w) :
    setRegAdvance w r v s = .fault (.pcWrap s.pc) :=
  advance_of_gt (s := s.setReg r v) hw

/-- The number of the bytes of an operand is the operand (R53). -/
theorem memRead_eq_ofNat_bytesAt {m : Memory} {a : Word} {n : Width} (h : a.toNat + n.bytes ≤ 0x1000000) :
    memRead m a n = .ok (BitVec.ofNat 24 (bytesAt m a.toNat n.bytes)) := by
  obtain ⟨v, hv, hnat⟩ := memRead_of_le (m := m) h
  rw [hv, ← hnat, BitVec.ofNat_toNat, BitVec.setWidth_eq]

/-- The bytes of an operand form a number below 2^8n. -/
theorem bytesAt_lt (m : Memory) (a n : Nat) : bytesAt m a n < 2 ^ (8 * n) := by
  induction n generalizing a with
  | zero => simp [bytesAt]
  | succ n ih =>
    have hlow := (m.read a).isLt
    have hhigh := ih (a + 1)
    rw [bytesAt, Nat.mul_succ, Nat.pow_add]
    omega

/-- A load through `f` inside the memory (R86). -/
theorem loadInto_completes (r : Reg) (n : Width) {a : Word} (f : Word → Word) {s : State}
    (ha : a.toNat + n.bytes ≤ 0x1000000) (hpc : s.pc.toNat + 4 ≤ 0xFFFFFF) :
    ∃ t, loadInto r n a f s = .next t ∧ t.reg r = f (BitVec.ofNat 24 (bytesAt s.mem a.toNat n.bytes)) ∧
      t.pc = s.pc + 4 ∧ OnlyChanges s t [r] [] [] := by
  rw [loadInto, withRead_of_ok (memRead_eq_ofNat_bytesAt ha)]
  exact setRegAdvance_completes r _ hpc

/-- A store inside the memory: each byte of the value at its address, and nothing else (R54, R86). -/
theorem storeAt_completes (n : Width) {a : Word} (v : Word) {s : State} (ha : a.toNat + n.bytes ≤ 0x1000000)
    (hpc : s.pc.toNat + 4 ≤ 0xFFFFFF) :
    ∃ t, storeAt n a v s = .next t ∧ memWrite s.mem a n v = .ok t.mem ∧ t.pc = s.pc + 4 ∧
      OnlyChanges s t [] [] ((List.range n.bytes).map (a.toNat + ·)) := by
  obtain ⟨m, hm⟩ := exists_memWrite_of_le s.mem v ha
  obtain ⟨-, -, hframe⟩ := memWrite_ok hm
  rw [storeAt, withWrite_of_ok hm]
  refine ⟨_, advance_of_le hpc, hm, rfl, onlyChanges_mem_setPc s m _ _ fun b hb => hframe b ?_⟩
  by_contra hin
  refine hb (List.mem_map.mpr ⟨b - a.toNat, List.mem_range.mpr ?_, ?_⟩) <;> omega

/-- A read-modify-write inside the memory: the operand's bytes form `f` of it modulo 2^8n (R132 to R135). -/
theorem modifyAt_completes (n : Width) {a : Word} (f : Word → Word) {s : State} (ha : a.toNat + n.bytes ≤ 0x1000000)
    (hpc : s.pc.toNat + 4 ≤ 0xFFFFFF) :
    ∃ t, modifyAt n a f s = .next t ∧ bytesAt t.mem a.toNat n.bytes =
        (f (BitVec.ofNat 24 (bytesAt s.mem a.toNat n.bytes))).toNat % 2 ^ (8 * n.bytes) ∧
      t.pc = s.pc + 4 ∧ OnlyChanges s t [] [] ((List.range n.bytes).map (a.toNat + ·)) := by
  rw [modifyAt, withRead_of_ok (memRead_eq_ofNat_bytesAt ha)]
  obtain ⟨t, ht, hm, hpc', honly⟩ := storeAt_completes n (f (BitVec.ofNat 24 (bytesAt s.mem a.toNat n.bytes))) ha hpc
  exact ⟨t, ht, bytesAt_of_memWrite hm, hpc', honly⟩

/-- An auto-increment load does what `AutoIncrements` says, for each access width (R160 to R162). -/
theorem autoIncrements_of_exec {mk : Reg → Reg → Instr} (n : Width)
    (h : ∀ x y s, exec (mk x y) s = autoIncrementLoad n x y s) : AutoIncrements mk n.bytes := by
  intro x y s
  rw [h]
  refine ⟨fun ha hpc => ?completes, autoIncrementLoad_of_gt, fun ha hpc => ?pcWrap⟩
  case completes =>
    rw [autoIncrementLoad, withRead_of_ok (memRead_eq_ofNat_bytesAt ha)]
    refine ⟨_, setRegAdvance_of_le (s := s.setReg y _) hpc, fun hne => ?two, fun heq => ?one, rfl, ?frame⟩
    case two => simp [hne, Ne.symm hne]
    case one => simp [heq]
    case frame =>
      refine ⟨fun r hr => ?_, fun _ _ => rfl, rfl, fun _ _ => rfl, rfl, rfl, rfl⟩
      obtain ⟨hx, hy⟩ : r ≠ x ∧ r ≠ y := by simpa using hr
      simp [hx, hy]
  case pcWrap =>
    rw [autoIncrementLoad, withRead_of_ok (memRead_eq_ofNat_bytesAt ha)]
    exact setRegAdvance_of_gt (s := s.setReg y _) hpc

/-- A clearing jump does what `JumpsClearing` says (R189). -/
theorem jumpsClearing_of_exec {mk : Word → Instr} {f : Flag} (h : ∀ a s, exec (mk a) s = jumpClearing f a s) :
    JumpsClearing mk f := by
  intro target s
  rw [h]
  refine ⟨fun hset => ⟨_, if_pos hset, rfl, ?_, onlyChanges_setFlag_setPc s f false target⟩, fun hclear hpc => ?untaken,
    fun hclear hpc => (if_neg (ne_true_of_eq_false hclear)).trans (advance_of_gt hpc)⟩
  · rw [State.flag_setPc, State.flag_setFlag, if_pos rfl]
  case untaken =>
    exact ⟨_, (if_neg (ne_true_of_eq_false hclear)).trans (advance_of_le hpc), rfl, onlyChanges_setPc s _⟩

/-- A jump on a clear flag does what `JumpsOnClear` says (R189). -/
theorem jumpsOnClear_of_exec {mk : Word → Instr} {f : Flag} (h : ∀ a s, exec (mk a) s = jumpKeeping f false a s) :
    JumpsOnClear mk f := by
  intro target s
  rw [h]
  refine ⟨fun hclear => ⟨_, if_pos hclear, rfl, onlyChanges_setPc s _⟩, fun hset hpc => ?untaken,
    fun hset hpc => (if_neg (ne_false_of_eq_true hset)).trans (advance_of_gt hpc)⟩
  case untaken => exact ⟨_, (if_neg (ne_false_of_eq_true hset)).trans (advance_of_le hpc), rfl, onlyChanges_setPc s _⟩

end Sys2Proof.Machine
end

section
/-! The statements about single instructions, each from its operand form (41_incdec.md to 46_stack.md, 40_system.md). -/

namespace Sys2Proof.Machine

open Sys2Proof.Claims

/-- Settles O8: the default extension page holds illegal slots alone, and an illegal slot halts. -/
theorem escapeHalts : Obligations.EscapeHalts :=
  ⟨decodesB_of_width_two rfl fun _ _ _ => rfl, fun _ s => haltWith_haltsOnly 1 _ s⟩

/-! 41_incdec.md -/

/-- Settles O24: both are a register write with an advance of 2. -/
theorem incDecRegister : Obligations.IncDecRegister := by
  refine ⟨decodesR_of_format rfl fun _ _ => rfl, decodesR_of_format rfl fun _ _ => rfl, fun r s => ⟨fun hpc => ?_,
    fun hpc => ?_⟩⟩
  · exact ⟨setRegAdvance_completes r _ hpc, setRegAdvance_completes r _ hpc⟩
  · exact ⟨setRegAdvance_of_gt hpc, setRegAdvance_of_gt hpc⟩

/-- A byte's read-modify-write by `f` is `g` of the byte, where `g` is `f` at 8 bits (R132, R133). -/
theorem modifyAt_byte_completes (a : Word) {f : Word → Word} {g : Byte → Byte}
    (hfg : ∀ b : Byte, (f (b.setWidth 24)).setWidth 8 = g b) {s : State} (hpc : s.pc.toNat + 4 ≤ 0xFFFFFF) :
    ∃ t, modifyAt .byte a f s = .next t ∧ t.mem.read a.toNat = g (s.mem.read a.toNat) ∧ t.pc = s.pc + 4 ∧
      OnlyChanges s t [] [] [a.toNat] := by
  obtain ⟨t, ht, hbyte, hrest⟩ := modifyAt_completes .byte f (Nat.succ_le_of_lt a.isLt) hpc
  refine ⟨t, ht, BitVec.eq_of_toNat_eq ?_, hrest⟩
  rw [Width.bytes, bytesAt_one, bytesAt_one, BitVec.ofNat_toNat] at hbyte
  rw [hbyte, ← hfg, BitVec.toNat_setWidth]

/-- Settles O25: a read-modify-write of one byte, whose result modulo 2^8 is the byte's own. -/
theorem incDecMemoryByte : Obligations.IncDecMemoryByte :=
  ⟨decodesA_of_format rfl fun _ _ => rfl, decodesA_of_format rfl fun _ _ => rfl, fun a _ hpc =>
    ⟨modifyAt_byte_completes a (g := (· + 1)) (fun b => by bv_omega) hpc,
      modifyAt_byte_completes a (g := (· - 1)) (fun b => by bv_omega) hpc⟩⟩

/-- A word access at the last address runs past the top (R55). -/
theorem word_past_top {a : Word} (h : a = 0xFFFFFF) : 0x1000000 < a.toNat + Width.word.bytes := by
  subst h
  decide

/-- A word's read-modify-write by `f` is `g` of its number, where `g` is `f` modulo 2^16 (R134, R135). -/
theorem modifyAt_word_completes {a : Word} {f : Word → Word} {g : Nat → Nat}
    (hfg : ∀ x < 65536, (f (BitVec.ofNat 24 x)).toNat % 65536 = g x) {s : State} (ha : a.toNat + 2 ≤ 0x1000000)
    (hpc : s.pc.toNat + 4 ≤ 0xFFFFFF) :
    ∃ t, modifyAt .word a f s = .next t ∧ bytesAt t.mem a.toNat 2 = g (bytesAt s.mem a.toNat 2) ∧ t.pc = s.pc + 4 ∧
      OnlyChanges s t [] [] [a.toNat, a.toNat + 1] := by
  obtain ⟨t, ht, hword, hrest⟩ := modifyAt_completes .word f ha hpc
  exact ⟨t, ht, hword.trans (hfg _ (bytesAt_lt s.mem a.toNat 2)), hrest⟩

/-- Settles O26: a read-modify-write of two bytes, whose result is taken modulo 2^16. -/
theorem incDecMemoryWord : Obligations.IncDecMemoryWord := by
  refine ⟨decodesA_of_format rfl fun _ _ => rfl, decodesA_of_format rfl fun _ _ => rfl, fun a s =>
    ⟨fun ha hpc => ⟨?inc, ?dec⟩, fun ha => ⟨modifyAt_of_gt (word_past_top ha), modifyAt_of_gt (word_past_top ha)⟩⟩⟩
  case inc => exact modifyAt_word_completes (g := fun x => (x + 1) % 65536) (fun x hx => by bv_omega) ha hpc
  case dec => exact modifyAt_word_completes (g := fun x => (x + 65535) % 65536) (fun x hx => by bv_omega) ha hpc

/-! 43_arith.md -/

/-- Settles O27: the destination is x, under the default `CLUSTER_DEST`. -/
theorem addRegister : Obligations.AddRegister :=
  ⟨decodesC_of_format rfl fun _ _ => rfl, fun x _ _ hpc => setRegAdvance_completes x _ hpc⟩

/-- Settles O28: a register write of the sum. -/
theorem addImmediate : Obligations.AddImmediate := by
  refine ⟨decodesOA_of_format rfl fun _ _ => rfl, fun r imm s hpc => ?_⟩
  obtain ⟨t, ht, hreg, hrest⟩ := setRegAdvance_completes r (s.reg r + imm) hpc
  exact ⟨t, ht, by rw [hreg, BitVec.toNat_add], hrest⟩

/-- Settles O29: a load through the addition. -/
theorem addMemory : Obligations.AddMemory :=
  ⟨decodesOA_of_format rfl fun _ _ => rfl, decodesOA_of_format rfl fun _ _ => rfl, fun r a s =>
    ⟨fun hpc => loadInto_completes r .byte (s.reg r + ·) (Nat.succ_le_of_lt a.isLt) hpc,
      fun ha hpc => loadInto_completes r .word (s.reg r + ·) ha hpc, fun ha => loadInto_of_gt (word_past_top ha)⟩⟩

/-- `cmp`'s flag writes change Z and N only (R155). -/
theorem onlyChanges_setCompareFlags_setPc (s : State) (v w p : Word) :
    OnlyChanges s ((s.setCompareFlags v w).setPc p) [] [.z, .n] [] := by
  refine ⟨fun _ _ => rfl, fun f hf => ?flagBits, State.setCompareFlags_reserved s v w, fun _ _ => rfl, rfl, rfl, rfl⟩
  cases f with
  | c => exact State.flag_setCompareFlags s v w .c
  | i => exact State.flag_setCompareFlags s v w .i
  | z | n => simp at hf

/-- Z after `cmp` says that the two are equal (R155). -/
theorem cmpZero_iff (v w : Word) : cmpZero v w = true ↔ v = w := by
  rw [cmpZero, beq_iff_eq]
  constructor <;> intro h <;> bv_omega

/-- N after `cmp` is bit 23, the top bit of the difference (R155, D21). -/
theorem cmpNegative_iff (v w : Word) : cmpNegative Config.cmpSignReading v w = true ↔ 2 ^ 23 ≤ (v - w).toNat := by
  have hbit : (v - w).getLsbD 23 = decide (2 ^ 23 ≤ (v - w).toNat) :=
    (BitVec.msb_eq_getLsbD_last _).symm.trans (BitVec.msb_eq_decide _)
  show (v - w).getLsbD 23 = true ↔ _
  rw [hbit, decide_eq_true_iff]

/-- Settles O30: the compare's flag writes and an advance of 4. -/
theorem compareImmediate : Obligations.CompareImmediate := by
  refine ⟨decodesOA_of_format rfl fun _ _ => rfl, fun r imm s hpc => ?_⟩
  refine ⟨_, advance_of_le (s := s.setCompareFlags (s.reg r) imm) hpc, ?z, ?n, rfl,
    onlyChanges_setCompareFlags_setPc s _ _ _⟩
  case z =>
    rw [State.flag_setPc, State.flag_setCompareFlags]
    exact cmpZero_iff (s.reg r) imm
  case n =>
    rw [State.flag_setPc, State.flag_setCompareFlags]
    exact cmpNegative_iff (s.reg r) imm

/-! 44_load_move.md -/

/-- Settles O31: the auto-increment load at each of its three widths. -/
theorem autoIncrementLoads : Obligations.AutoIncrementLoads :=
  ⟨decodesC_of_format rfl fun _ _ => rfl, decodesC_of_format rfl fun _ _ => rfl,
    decodesC_of_format rfl fun _ _ => rfl, autoIncrements_of_exec .byte fun _ _ _ => rfl,
    autoIncrements_of_exec .word fun _ _ _ => rfl, autoIncrements_of_exec .triple fun _ _ _ => rfl⟩

/-- Settles O32: the destination is x, under the default `CLUSTER_DEST`. -/
theorem moveRegister : Obligations.MoveRegister :=
  ⟨decodesC_of_format rfl fun _ _ => rfl, fun x _ _ hpc => setRegAdvance_completes x _ hpc⟩

/-- Settles O33: a register write of the immediate. -/
theorem moveImmediate : Obligations.MoveImmediate :=
  ⟨decodesOA_of_format rfl fun _ _ => rfl, fun r imm _ hpc => setRegAdvance_completes r imm hpc⟩

/-- A load of at most three bytes gives the register their number (R53, R86). -/
theorem loadInto_id_completes (r : Reg) (n : Width) {a : Word} {s : State} (ha : a.toNat + n.bytes ≤ 0x1000000)
    (hpc : s.pc.toNat + 4 ≤ 0xFFFFFF) :
    ∃ t, loadInto r n a id s = .next t ∧ (t.reg r).toNat = bytesAt s.mem a.toNat n.bytes ∧ t.pc = s.pc + 4 ∧
      OnlyChanges s t [r] [] [] := by
  obtain ⟨t, ht, hreg, hrest⟩ := loadInto_completes r n id ha hpc
  obtain ⟨v, hv, hnat⟩ := memRead_of_le (m := s.mem) ha
  refine ⟨t, ht, ?_, hrest⟩
  rw [hreg, ← hnat, id, BitVec.ofNat_toNat, BitVec.setWidth_eq]

/-- Settles O34: a load through the identity. -/
theorem loadAbsolute : Obligations.LoadAbsolute :=
  ⟨decodesOA_of_format rfl fun _ _ => rfl, decodesOA_of_format rfl fun _ _ => rfl, fun r a _ =>
    ⟨fun hpc => loadInto_id_completes r .byte (Nat.succ_le_of_lt a.isLt) hpc,
      fun ha hpc => loadInto_id_completes r .word ha hpc, fun ha => loadInto_of_gt (word_past_top ha)⟩⟩

/-- Settles O35: a store of the register's low bytes. -/
theorem storeAbsolute : Obligations.StoreAbsolute := by
  refine ⟨decodesOA_of_format rfl fun _ _ => rfl, decodesOA_of_format rfl fun _ _ => rfl, fun r a s =>
    ⟨fun hpc => ?byte, fun ha hpc => ?word, fun ha => storeAt_of_gt (word_past_top ha)⟩⟩
  case byte =>
    obtain ⟨t, ht, hm, hrest⟩ := storeAt_completes .byte (s.reg r) (Nat.succ_le_of_lt a.isLt) hpc
    obtain ⟨-, hbytes, -⟩ := memWrite_ok hm
    exact ⟨t, ht, hbytes 0 (by decide), hrest⟩
  case word =>
    obtain ⟨t, ht, hm, hrest⟩ := storeAt_completes .word (s.reg r) ha hpc
    obtain ⟨-, hbytes, -⟩ := memWrite_ok hm
    exact ⟨t, ht, hbytes 0 (by decide), hbytes 1 (by decide), hrest⟩

/-! 45_jumps.md -/

/-- Settles O36: `jmp` writes pc and nothing else. -/
theorem unconditionalJump : Obligations.UnconditionalJump :=
  ⟨decodesA_of_format rfl fun _ _ => rfl, fun target s => ⟨_, rfl, rfl, onlyChanges_setPc s target⟩⟩

/-- Settles O37: the clearing jump on each of the four flags. -/
theorem jumpsThatClearTheirFlag : Obligations.JumpsThatClearTheirFlag :=
  ⟨decodesA_of_format rfl fun _ _ => rfl, decodesA_of_format rfl fun _ _ => rfl,
    decodesA_of_format rfl fun _ _ => rfl, decodesA_of_format rfl fun _ _ => rfl,
    jumpsClearing_of_exec fun _ _ => rfl, jumpsClearing_of_exec fun _ _ => rfl,
    jumpsClearing_of_exec fun _ _ => rfl, jumpsClearing_of_exec fun _ _ => rfl⟩

/-- Settles O38: the jump on a clear flag, for each of the four flags. -/
theorem jumpsOnAClearFlag : Obligations.JumpsOnAClearFlag :=
  ⟨decodesA_of_format rfl fun _ _ => rfl, decodesA_of_format rfl fun _ _ => rfl,
    decodesA_of_format rfl fun _ _ => rfl, decodesA_of_format rfl fun _ _ => rfl,
    jumpsOnClear_of_exec fun _ _ => rfl, jumpsOnClear_of_exec fun _ _ => rfl,
    jumpsOnClear_of_exec fun _ _ => rfl, jumpsOnClear_of_exec fun _ _ => rfl⟩

/-! 46_stack.md -/

/-- Settles O39: a push of a value that is read before SP moves. -/
theorem pushInstructions : Obligations.PushInstructions :=
  ⟨decodesA_of_format rfl fun _ _ => rfl, decodesR_of_format rfl fun _ _ => rfl, fun s hsp =>
    ⟨fun imm hpc => withPush_advance_completes imm hsp hpc, fun r hpc => withPush_advance_completes (s.reg r) hsp hpc⟩⟩

end Sys2Proof.Machine
end

section
/-! The host services that move a value: console-write, console-read, random, clock and delay (R225, R226, R229 to
R231). -/

namespace Sys2Proof.Machine

open Sys2Proof.Claims

/-! What a service's work keeps, the service keeps: after it only the event and the advance, or a draw with them (R43,
R232). -/

theorem OnlyChanges.record_setPc {s u : State} {regs : List Reg} {bytes : List Nat}
    (h : OnlyChanges s u regs [] bytes) (hflags : u.flags = s.flags) (e : HostEvent) :
    ServiceOnly s ((u.record e).setPc (s.pc + 2)) regs bytes e 0 :=
  ⟨rfl, h.registers, hflags, h.memory, h.runState, congrArg (· ++ [e]) h.traceKept, h.drawsKept⟩

theorem OnlyChanges.record_drawn_setPc {s u : State} {regs : List Reg} {bytes : List Nat}
    (h : OnlyChanges s u regs [] bytes) (hflags : u.flags = s.flags) (e : HostEvent) :
    ServiceOnly s (((u.record e).drawn).setPc (s.pc + 2)) regs bytes e 1 :=
  ⟨rfl, h.registers, hflags, h.memory, h.runState, congrArg (· ++ [e]) h.traceKept, congrArg (· + 1) h.drawsKept⟩

/-- A draw into a register, its event and the advance past the `int` (R229, R230). -/
theorem serviceOnly_draw (s : State) (r : Reg) (v : Word) (e : HostEvent) :
    ServiceOnly s ((((s.setReg r v).record e).drawn).setPc (s.pc + 2)) [r] [] e 1 :=
  (onlyChanges_setReg s r v).record_drawn_setPc rfl e

/-- Settles O44: the pop, the event of the low byte and an advance of 2. -/
theorem consoleWriteEmitsTheLowByte : Obligations.ConsoleWriteEmitsTheLowByte := by
  intro code s u v hr hpop hpc
  have hservice : hostService .consoleWrite s = advance 2 (u.record (.consoleOut (byteOf v 0))) := withPop_of_ok hpop
  obtain ⟨-, -, rfl⟩ := stackPop_ok hpop
  rw [exec_int_of_runs hr, hservice]
  refine ⟨_, advance_of_le hpc, ?sp, (onlyChanges_setReg s .sp (s.reg .sp + 3)).record_setPc rfl _⟩
  case sp => rw [State.reg_setPc, State.reg_record, State.reg_setReg, if_pos rfl]

/-- The bytes of a byte zero-extended (R225). -/
theorem byteOf_setWidth (b : Byte) :
    byteOf (b.setWidth 24) 0 = b ∧ byteOf (b.setWidth 24) 1 = 0 ∧ byteOf (b.setWidth 24) 2 = 0 := by
  rw [← joinBytes_zero_zero]
  exact ⟨byteOf_joinBytes_zero b 0 0, byteOf_joinBytes_one b 0 0, byteOf_joinBytes_two b 0 0⟩

/-- Console-read with an answer, where SP does not wrap and pc advances: the push of the byte, the event, the draw and an
advance of 2 (R225). -/
theorem serviceConsoleRead_completes (b : Byte) {s : State} (hsp : 3 ≤ (s.reg .sp).toNat)
    (hpc : s.pc.toNat + 2 ≤ 0xFFFFFF) :
    ∃ t, serviceConsoleRead (some b) s = .next t ∧ t.reg .sp = s.reg .sp - 3 ∧
      t.mem.read (s.reg .sp).toNat = b ∧ t.mem.read ((s.reg .sp).toNat - 1) = 0 ∧
      t.mem.read ((s.reg .sp).toNat - 2) = 0 ∧
      ServiceOnly s t [.sp] [(s.reg .sp).toNat, (s.reg .sp).toNat - 1, (s.reg .sp).toNat - 2] (.consoleIn b) 1 := by
  obtain ⟨u, hpush, hlow, hbytes, hupc, honly⟩ := stackPush_completes (b.setWidth 24) hsp
  obtain ⟨hb0, hb1, hb2⟩ := byteOf_setWidth b
  have hservice : serviceConsoleRead (some b) s = advance 2 ((u.record (.consoleIn b)).drawn) := withPush_of_ok hpush
  have hadvance : advance 2 ((u.record (.consoleIn b)).drawn) =
      .next (((u.record (.consoleIn b)).drawn).setPc (s.pc + 2)) := by
    rw [← hupc] at hpc ⊢
    exact advance_of_le hpc
  exact ⟨_, hservice.trans hadvance, hlow, (hbytes 0 (by omega)).trans hb0, (hbytes 1 (by omega)).trans hb1,
    (hbytes 2 (by omega)).trans hb2, honly.record_drawn_setPc (stackPush_flags hpush) _⟩

/-- Settles O45: by the host's answer; with none the step answers the unchanged state. -/
theorem consoleReadPushesTheByte : Obligations.ConsoleReadPushesTheByte := by
  intro code s hr hsp hpc
  rw [exec_int_of_runs hr]
  show ∃ t, serviceConsoleRead (Config.consoleIn s.draws) s = .next t ∧ _
  cases Config.consoleIn s.draws with
  | none => exact ⟨s, rfl, rfl⟩
  | some b => exact serviceConsoleRead_completes b hsp hpc

/-- Settles O48: each writes AX, records the value, takes a draw and advances. -/
theorem randomAndClockWriteTheServiceRegister : Obligations.RandomAndClockWriteTheServiceRegister := by
  intro code s hpc
  refine ⟨fun hr => ?random, fun hr => ?clock⟩
  case random =>
    have hnat : ((Config.random s.draws).setWidth 24).toNat = (Config.random s.draws).toNat :=
      BitVec.toNat_setWidth_of_le (by decide)
    rw [exec_int_of_runs hr]
    exact ⟨_, advance_of_le hpc, hnat, serviceOnly_draw s .ax _ _⟩
  case clock =>
    rw [exec_int_of_runs hr]
    exact ⟨_, advance_of_le hpc, rfl, serviceOnly_draw s .ax _ _⟩

/-- Settles O49: the service records the count in AX and advances. -/
theorem delayOnlyRecords : Obligations.DelayOnlyRecords := by
  intro code s hr hpc
  rw [exec_int_of_runs hr]
  exact ⟨_, advance_of_le (s := s.record (.delay (s.reg .ax))) hpc, serviceOnly_record_setPc s _⟩

end Sys2Proof.Machine
end

section
/-! Rules about every instruction: where pc cannot advance, where pc stands afterwards, and which instructions change
memory (10_state.md, 20_memory.md). -/

namespace Sys2Proof.Machine

open Sys2Proof.Claims

/-! pc. -/

/-- Only a halt, a jump and `int` complete where the advance would pass 0xFFFFFF: every other shape has advanced (R30). -/
theorem Effect.opcode_of_gt {s t : State} {i : Instr} (h : Effect s i t) (hgt : 0xFFFFFF < s.pc.toNat + i.width) :
    i.opcode = .hlt ∨ i.opcode = .escapeE ∨ i.opcode = .intCode ∨
      i.opcode ∈ [Opcode.jmpT, .jeT, .jneT, .jcT, .jncT, .jsT, .jnT, .jiT, .jniT] := by
  cases h with
  | halt _ _ hi => exact hi.imp_right .inl
  | register _ _ hw | autoIncrement _ _ _ _ hw | compare _ _ hw | store _ hw | push _ hw =>
    exact absurd hgt (Nat.not_lt.mpr hw)
  | jump _ hi => exact .inr (.inr (.inr hi))
  | jumpClearing _ _ _ hi =>
    obtain ⟨hi, -⟩ | ⟨hi, -⟩ | ⟨hi, -⟩ | ⟨hi, -⟩ := hi <;> exact .inr (.inr (.inr (by simp [hi])))
  | int => exact .inr (.inr (.inl rfl))

/-- The register-only instructions raise `PcWrap` where pc cannot advance (R30). -/
theorem exec_register_of_gt {i : Instr} {s : State} (hgt : 0xFFFFFF < s.pc.toNat + i.width)
    (hi : i.opcode ∈ [Opcode.incR, .decR, .addRxRy, .movRxRy, .movRImm, .addRImm, .cmpRImm]) :
    exec i s = .fault (.pcWrap s.pc) := by
  cases i
  case incR | decR | addRxRy | movRxRy | movRImm | addRImm => exact setRegAdvance_of_gt hgt
  case cmpRImm r imm => exact advance_of_gt (s := s.setCompareFlags (s.reg r) imm) hgt
  all_goals simp [Instr.opcode] at hi

/-- Settles O12: the shapes of a completed instruction, and the advance that ends each service. -/
theorem sequentialWrapFaults : Obligations.SequentialWrapFaults := by
  refine ⟨fun i s t hgt h => (exec_effect h).opcode_of_gt hgt, fun i s hgt hi => exec_register_of_gt hgt hi,
    fun code s hgt => ⟨fun hoff => ?gatedOff, fun svc hsvc hr => ?services, fun hr hsp => ?consoleWrite,
      fun hr hsp => ?consoleRead⟩⟩
  case gatedOff => exact (exec_int_of_flag_clear code hoff).trans (advance_of_gt hgt)
  case services =>
    rw [exec_int_of_runs hr]
    cases svc with
    | exit | consoleRead | consoleWrite | reset => exact absurd hsvc (by decide)
    | videoFlush => exact advance_of_gt (s := s.record _) hgt
    | random | clock => exact advance_of_gt (s := ((s.setReg _ _).record _).drawn) hgt
    | delay => exact advance_of_gt (s := s.record _) hgt
  case consoleWrite =>
    rw [exec_int_of_runs hr]
    exact (withPop_of_ok (stackPop_of_le hsp)).trans (advance_of_gt hgt)
  case consoleRead =>
    rw [exec_int_of_runs hr]
    show serviceConsoleRead (Config.consoleIn s.draws) s = _
    cases Config.consoleIn s.draws with
    | none => rfl
    | some b => exact (withPush_of_ok (stackPush_of_le hsp)).trans (advance_of_gt hgt)

/-- A pc that does not pass 0xFFFFFF advances as a number (R27). -/
theorem toNat_add_width {pc : Word} {w : Nat} (h : pc.toNat + w ≤ 0xFFFFFF) :
    (pc + BitVec.ofNat 24 w).toNat = pc.toNat + w := by
  rw [BitVec.toNat_add, BitVec.toNat_ofNat, Nat.add_mod_mod, Nat.mod_eq_of_lt (by omega)]

/-- An `int` that halts a running core leaves pc where it is (R27, D17). -/
theorem IntEffect.pc_of_halted {s t : State} {code : Byte} (h : IntEffect s code t) (hrun : s.run = .running)
    (ht : t.run ≠ .running) : t.pc = s.pc := by
  cases h with
  | illegal | blocked => rfl
  | exited _ hp =>
    obtain ⟨-, -, rfl⟩ := stackPop_ok hp
    rfl
  | off | vectored | event | draw => exact absurd hrun ht
  | consoleRead _ hp =>
    obtain ⟨-, rfl⟩ := stackPush_ok hp
    exact absurd hrun ht
  | consoleWrite _ hp =>
    obtain ⟨-, -, rfl⟩ := stackPop_ok hp
    exact absurd hrun ht
  | reset => exact absurd rfl ht

/-- Settles O13: a halting shape keeps pc, and every other shape but a jump and `int` has moved it by the width. -/
theorem pcAfterAnInstruction : Obligations.PcAfterAnInstruction := by
  intro i s t hrun h
  cases exec_effect h with
  | halt => exact ⟨fun _ => rfl, nofun⟩
  | register _ _ hw | autoIncrement _ _ _ _ hw | compare _ _ hw | store _ hw =>
    exact ⟨absurd hrun, fun _ => .inr (.inr (toNat_add_width hw))⟩
  | push hp hw =>
    obtain ⟨-, rfl⟩ := stackPush_ok hp
    exact ⟨absurd hrun, fun _ => .inr (.inr (toNat_add_width hw))⟩
  | jump _ hi => exact ⟨absurd hrun, fun _ => .inr (.inl hi)⟩
  | jumpClearing _ _ _ hi =>
    obtain ⟨hi, -⟩ | ⟨hi, -⟩ | ⟨hi, -⟩ | ⟨hi, -⟩ := hi <;>
      exact ⟨absurd hrun, fun _ => .inr (.inl (by simp [hi]))⟩
  | int hint => exact ⟨hint.pc_of_halted hrun, fun _ => .inl rfl⟩

/-! Memory. -/

/-- Settles O22: the fetch begins with memory's byte at pc, which is where the store put its byte. -/
theorem nextFetchSeesTheStore : Obligations.NextFetchSeesTheStore := by
  intro s a r t ha h
  obtain ⟨m, hm, -, rfl⟩ := storeAt_next h
  obtain ⟨-, hbytes, -⟩ := memWrite_ok hm
  obtain ⟨tail, htail⟩ := fetchBytes_cons m a
  show (fetchBytes m (s.pc + 4)).head? = _
  rw [← ha, htail, List.head?_cons]
  exact congrArg some (hbytes 0 (by decide))

/-- A completed `int` writes memory only when it runs the console-read service (R225). -/
theorem IntEffect.mem_eq_or_consoleRead {s t : State} {code : Byte} (h : IntEffect s code t) :
    t.mem = s.mem ∨ Runs code .consoleRead s := by
  cases h with
  | off | vectored | illegal | blocked | reset | event | draw => exact .inl rfl
  | exited _ hp | consoleWrite _ hp =>
    obtain ⟨-, -, rfl⟩ := stackPop_ok hp
    exact .inl rfl
  | consoleRead hr => exact .inr hr

/-- Settles O23, by the shape of the completed instruction: the store, the push and the console-read write memory. -/
theorem onlyStoresChangeMemory : Obligations.OnlyStoresChangeMemory := by
  intro i s t a h hne
  cases exec_effect h with
  | halt | register | autoIncrement | compare | jump | jumpClearing => exact absurd rfl hne
  | store _ _ hi => exact .inl (List.subset_def.mp (by decide) hi)
  | push _ _ hi => exact .inl (List.subset_def.mp (by decide) hi)
  | int hint =>
    obtain heq | hr := hint.mem_eq_or_consoleRead
    · exact absurd (congrArg (Memory.read · a) heq) hne
    · exact .inr ⟨_, rfl, hr⟩

end Sys2Proof.Machine
end
